-- ==== Sys2Proof/Word.lean ====
section
/-! DEFINITION. The words of the machine: every cell and register is 8 bits wide (00_scope.md R6), every address 9 bits (10_state.md R21, R31). -/

namespace Sys2Proof

/-- A memory cell, a register, an operand or an output event: 8 bits, unsigned (00_scope.md R6, R7). -/
abbrev Byte := BitVec 8

/-- An address as the core carries it: 9 bits, so that an advance past 255 is held and not wrapped (10_state.md R21, R31). -/
abbrev Addr := BitVec 9

end Sys2Proof
end

