-- ==== Sys2Proof/Config.lean ====
section
/-! DEFINITION. The parameters of the hardware (00_scope.md R6). The core needs no free value (00_scope.md R13); the one below is the host's loader's. -/

namespace Sys2Proof.Config

/-- `MEM_SIZE`: memory cells, at addresses 0 to 255 (00_scope.md R6). -/
def memSize : Nat := 256

/-- `NREGS`: general registers, indexed 0 to 7 (00_scope.md R6). -/
abbrev numRegs : Nat := 8

/-- FREE VALUE, of the host's side only: the byte of a cell after a load that failed on a malformed line of a file's
text. The spec does not say what the loader has written by then (60_exceptions.md R116; log entry 7). -/
opaque failedLoadByte : List Char → Nat → Byte

end Sys2Proof.Config
end

