-- ==== Sys2Proof/Machine/State.lean ====
section
/-! DEFINITION. The machine's state, its value after reset, and the reasons for which the host's side stops (10_state.md R18 to R38). -/

namespace Sys2Proof.Machine

/-- The run-state register (10_state.md R23). Its 2-bit codes are `RunState.code`. -/
inductive RunState where
  /-- After reset: the host may load memory, no step is taken. -/
  | idle
  /-- The core takes steps. -/
  | running
  /-- HLT was executed: terminal. -/
  | halted
  /-- A fault was raised: terminal. -/
  | faulted
  deriving DecidableEq, Repr

/-- The four faults that the core detects (60_exceptions.md R103). Each is recorded in the fault record of a NEXT
state (R105). Their 3-bit codes are `CoreFault.code`. -/
inductive CoreFault where
  /-- The opcode byte is none of the four. -/
  | unrecognizedOpcode
  /-- The opcode fetch, or an operand that the handler uses, lies at an address of 256 or more. -/
  | outOfRangeAddress
  /-- An operand used as a register index is 8 or more. -/
  | outOfRangeRegister
  /-- The ALU was given an operation other than ADD and MUL: no program reaches it (R109). -/
  | unsupportedAluOperation
  deriving DecidableEq, Repr

/-- What a step raises: the fault and the value that the fault record takes (60_exceptions.md R105). -/
structure Raised where
  fault : CoreFault
  value : Addr
  deriving DecidableEq, Repr

/-- The fault record (10_state.md R25). `cause` is `none` for code 0. -/
structure FaultRecord where
  cause : Option CoreFault
  pc    : Addr
  value : BitVec 9
  deriving DecidableEq, Repr

/-- Memory as (address, byte) pairs in one canonical form, `Memory.wf`. -/
abbrev Memory := List Host.Cell

/-- The whole state of the machine (10_state.md R38; INVENTORY.md, State). -/
structure State where
  /-- The general registers `x[0]` to `x[7]` (10_state.md R18). -/
  x     : Vector Byte Config.numRegs
  /-- The program counter, 9 bits (10_state.md R21). -/
  pc    : Addr
  /-- The run-state register (10_state.md R23). -/
  run   : RunState
  /-- `fault_cause`, `fault_pc` and `fault_value` (10_state.md R25). -/
  fault : FaultRecord
  /-- The 256 memory cells (10_state.md R27). -/
  mem   : Memory
  /-- The output trace, oldest event first (10_state.md R30). -/
  out   : List Byte
  deriving DecidableEq, Repr

/-- Every piece of state at the value the spec gives for reset (10_state.md R38; 70_reset_and_hazards.md R123). -/
def State.reset : State where
  x     := Vector.replicate Config.numRegs 0#8
  pc    := 0#9
  run   := .idle
  fault := { cause := none, pc := 0#9, value := 0#9 }
  mem   := []
  out   := []

/-- A load that fails before the core starts (60_exceptions.md R116). NO STEP RAISES ONE: a fault of the core is a
next state with the fault recorded (R105). All are raised by `hostLoad` alone. Safe: nothing runs after it. -/
inductive Fault where
  /-- Raised by `hostLoad`: the file cannot be opened. Safe. -/
  | programNotFound
  /-- Raised by `hostLoad`: a line is neither blank, nor a comment, nor a binary literal of at most 8 digits. Safe. -/
  | malformedInstruction
  /-- Raised by `hostLoad`: the image is longer than 256 bytes, so its write at address 256 is refused. Safe. -/
  | imageTooLarge
  deriving DecidableEq, Repr

/-- An action that is refused. No step of the core is refused. -/
inductive Refusal where
  /-- An instruction without a meaning. Raised by no arm: every instruction has its meaning. Safe. -/
  | notModelled (mnemonic : String)
  /-- Raised by a host write: the address does not exist, and the writer is told so (20_memory.md R41). Safe. -/
  | writeOutOfRange (addr : Addr)
  /-- Raised by a host write while the core is not IDLE: the spec gives a host no such move (60_exceptions.md R122).
  UNSAFE if a real host makes that move (log entry 5). -/
  | writeOutsideIdle
  deriving DecidableEq, Repr

/-- How the host classifies a run (60_exceptions.md R118). -/
inductive RunOutcome where
  /-- A clean end: `run = HALTED`. -/
  | halted
  /-- `run = FAULTED`, with this cause. -/
  | fault (f : CoreFault)
  /-- The load failed and the core was never started. -/
  | loadFailed (r : Fault)
  /-- The host stopped a RUNNING core (R119). -/
  | budgetExceeded
  deriving DecidableEq, Repr

end Sys2Proof.Machine
end

