-- ==== Sys2Proof/Machine/Ops.lean ====
section
/-! DEFINITION. The named operations over registers, program counter, memory, output, run state and fault record, and raising a fault. -/

namespace Sys2Proof.Machine

/-! ### Registers, program counter, output, halting -/

/-- `x[i]` (10_state.md R18). -/
def State.reg (s : State) (i : Fin 8) : Byte := s.x[i]

/-- `x[i] <- v` (10_state.md R18). -/
def State.setReg (s : State) (i : Fin 8) (v : Byte) : State := { s with x := s.x.set i v }

/-- `pc <- pc + n`: plain addition in the 9-bit register (10_state.md R22; log entry 3). -/
def State.advance (s : State) (n : Addr) : State := { s with pc := s.pc + n }

/-- `emit(v)`: one event on the output port, kept at the end of the trace (10_state.md R30). -/
def State.emit (s : State) (v : Byte) : State := { s with out := s.out ++ [v] }

/-- `run <- HALTED` (43_hlt.md R100). -/
def State.halt (s : State) : State := { s with run := .halted }

/-! ### Taking a fault -/

/-- `raise F(pc, v)`: the fault record and `run` are written and nothing else. There is no return from a fault
(60_exceptions.md R105, R111). -/
def State.raise (s : State) (e : Raised) : State :=
  { s with run := .faulted, fault := { cause := some e.fault, pc := s.pc, value := e.value } }

/-- The end of a step that began in `s`: its effects if every check passed, else the fault raised in `s`, whose
effects are discarded (40_fetch_execute.md R81; 60_exceptions.md R105). Either is a next state (log entry 2). -/
def State.settle (s : State) : Except Raised State → Host.Outcome State Fault Refusal
  | .ok t => .next t
  | .error e => .next (s.raise e)

/-! ### Memory -/

/-- What a cell that the list does not name reads as: its reset value 0 (10_state.md R27). -/
def Memory.unlisted : Byte := 0#8

/-- The byte at an address. -/
def Memory.read : Memory → Nat → Byte
  | [], _ => Memory.unlisted
  | (k, v) :: m, a => if k = a then v else Memory.read m a

/-- A cell put before a memory, left out when it holds what an unlisted cell reads as. -/
def Memory.cons (a : Nat) (v : Byte) (m : Memory) : Memory :=
  if v = Memory.unlisted then m else (a, v) :: m

/-- The memory with one cell written, in canonical form. -/
def Memory.write : Memory → Nat → Byte → Memory
  | [], a, v => Memory.cons a v []
  | (k, w) :: m, a, v =>
    if a < k then Memory.cons a v ((k, w) :: m)
    else if a = k then Memory.cons a v m
    else (k, w) :: Memory.write m a v

/-- Addresses rise strictly from `lo`, each exists, and no entry holds what an unlisted cell reads as. -/
def Memory.wfFrom : Nat → Memory → Bool
  | _, [] => true
  | lo, (k, v) :: m =>
    decide (lo ≤ k) && decide (k < Config.memSize) && decide (v ≠ Memory.unlisted) && Memory.wfFrom (k + 1) m

/-- The canonical form of a memory. -/
def Memory.wf (m : Memory) : Bool := Memory.wfFrom 0 m

/-- Bytes written one after the other from an address on; those past the last cell are dropped. -/
def Memory.place : Memory → Nat → List Byte → Memory
  | m, _, [] => m
  | m, a, b :: bs => Memory.place (if a < Config.memSize then Memory.write m a b else m) (a + 1) bs

/-- `mem[a]`, without a check of the address. -/
def State.memAt (s : State) (a : Nat) : Byte := Memory.read s.mem a

/-- `mem[a] <- v`, without a check of the address. -/
def State.setMem (s : State) (a : Nat) (v : Byte) : State := { s with mem := Memory.write s.mem a v }

/-- `MemRead(addr, 1)`: the architectural read, which faults at 256 and above (20_memory.md R40). -/
def State.memRead (s : State) (a : Addr) : Except Raised Byte :=
  if a.toNat < Config.memSize then .ok (s.memAt a.toNat)
  else .error { fault := .outOfRangeAddress, value := a }

/-- `OpFetch(addr)`: the speculative operand read, which never faults (20_memory.md R42). `none` is `pm_oor = 1`
at the program-memory read interface (10_state.md R31). -/
def State.opFetch (s : State) (a : Addr) : Option Byte :=
  if a.toNat < Config.memSize then some (s.memAt a.toNat) else none

/-! ### The numeric codes of the status registers -/

/-- The 2-bit encoding of the run state (10_state.md R23). -/
def RunState.code : RunState → BitVec 2
  | .idle => 0#2
  | .running => 1#2
  | .halted => 2#2
  | .faulted => 3#2

/-- The 3-bit code of a fault (60_exceptions.md R103). -/
def CoreFault.code : CoreFault → BitVec 3
  | .unrecognizedOpcode => 1#3
  | .outOfRangeAddress => 2#3
  | .outOfRangeRegister => 3#3
  | .unsupportedAluOperation => 4#3

/-- `fault_cause` as the status interface gives it: 0 is no fault (10_state.md R25, R35). -/
def State.faultCauseCode (s : State) : BitVec 3 :=
  match s.fault.cause with
  | none => 0#3
  | some f => f.code

end Sys2Proof.Machine
end

