-- ==== Sys2Proof/Machine/Hlt.lean ====
section
/-! DEFINITION. The handler of HLT (43_hlt.md R100). -/

namespace Sys2Proof.Machine

/-- HLT: `run <- HALTED`; `pc`, registers, memory and output keep their values (43_hlt.md R100). -/
def execHlt (s : State) : Host.Outcome State Fault Refusal := .next s.halt

end Sys2Proof.Machine
end

