-- ==== Sys2Proof/Syntax.lean ====
section
/-! DEFINITION. The instructions: one constructor for each row of spec/opcode_table.json (30_encoding.md R60). -/

namespace Sys2Proof

/-- An operand latch: the byte that the speculative operand fetch found, or `none` when its address is 256 or
more (10_state.md R28; 20_memory.md R42). A handler is run with its latches (40_fetch_execute.md R76). -/
abbrev Operand := Option Byte

/-- A decoded instruction with the operand latches that its handler uses. A register operand is the whole byte,
not masked: the handler checks it (30_encoding.md R61, R72). -/
inductive Instr where
  /-- LDI rA,imm: format F2RI, destination register index and immediate (41_ldi_prn.md R85). -/
  | ldi (ra imm : Operand)
  /-- PRN rA: format F1R, source register index (41_ldi_prn.md R88). -/
  | prn (ra : Operand)
  /-- MUL rA,rB: format F2RR, destination and first source, second source (42_alu_mul.md R96). -/
  | mul (ra rb : Operand)
  /-- HLT: format F0, no operand (43_hlt.md R100). -/
  | hlt
  deriving DecidableEq, Repr

end Sys2Proof
end

