-- ==== Sys2Proof/Machine/Operands.lean ====
section
/-! DEFINITION. How a handler takes its operands: `need` and `regidx` (40_fetch_execute.md R77, R78). -/

namespace Sys2Proof.Machine

/-- `need(o, addr)`: the byte of a latch, or OutOfRangeAddress with the latch's address (40_fetch_execute.md R77). -/
def need (o : Operand) (addr : Addr) : Except Raised Byte :=
  match o with
  | some b => .ok b
  | none => .error { fault := .outOfRangeAddress, value := addr }

/-- `regidx(v)`: the register that an operand byte names, or OutOfRangeRegister with the byte. The whole byte is
compared with 8, never masked (40_fetch_execute.md R78; 30_encoding.md R61). -/
def regidx (v : Byte) : Except Raised (Fin 8) :=
  if h : v.toNat < 8 then .ok ⟨v.toNat, h⟩
  else .error { fault := .outOfRangeRegister, value := v.setWidth 9 }

end Sys2Proof.Machine
end

