-- ==== Sys2Proof/Machine/LdiPrn.lean ====
section
/-! DEFINITION. The handlers of LDI and PRN (41_ldi_prn.md). -/

namespace Sys2Proof.Machine

/-- LDI: `x[ra] <- imm`, `pc <- pc + 3`. Both operand addresses are checked before the register index
(41_ldi_prn.md R85; 40_fetch_execute.md R79). -/
def execLdi (ra imm : Operand) (s : State) : Host.Outcome State Fault Refusal :=
  s.settle do
    let a ← need ra (s.pc + 1#9)
    let v ← need imm (s.pc + 2#9)
    let r ← regidx a
    return (s.setReg r v).advance 3#9

/-- PRN: `emit(x[ra])`, `pc <- pc + 2` (41_ldi_prn.md R88). -/
def execPrn (ra : Operand) (s : State) : Host.Outcome State Fault Refusal :=
  s.settle do
    let a ← need ra (s.pc + 1#9)
    let r ← regidx a
    return (s.emit (s.reg r)).advance 2#9

end Sys2Proof.Machine
end

