-- ==== Sys2Proof/Machine/Alu.lean ====
section
/-! DEFINITION. The ALU interface (42_alu_mul.md R91 to R95; 10_state.md R34). -/

namespace Sys2Proof.Machine

/-- `alu_op` of ADD, which no opcode reaches (42_alu_mul.md R91, R93). -/
def aluAdd : BitVec 2 := 0#2
/-- `alu_op` of MUL (42_alu_mul.md R91). -/
def aluMul : BitVec 2 := 1#2

/-- `ALU(op, a, b)`: the exact sum or product of the unsigned inputs, reduced modulo 256; `none` is `unsupported`
(42_alu_mul.md R91 to R94). -/
def alu (op : BitVec 2) (a b : Byte) : Option Byte :=
  if op = aluAdd then some (BitVec.ofNat 8 (a.toNat + b.toNat))
  else if op = aluMul then some (BitVec.ofNat 8 (a.toNat * b.toNat))
  else none

/-- A step's use of the ALU: `unsupported` raises UnsupportedAluOperation with the operation code
(42_alu_mul.md R94, R96). -/
def aluApply (op : BitVec 2) (a b : Byte) : Except Raised Byte :=
  match alu op a b with
  | some v => .ok v
  | none => .error { fault := .unsupportedAluOperation, value := op.setWidth 9 }

end Sys2Proof.Machine
end

