-- ==== Sys2Proof/Machine/Mul.lean ====
section
/-! DEFINITION. The handler of MUL (42_alu_mul.md R96). -/

namespace Sys2Proof.Machine

/-- MUL: `x[ra] <- (x[ra] * x[rb]) mod 256`, `pc <- pc + 3`. Both registers are read before the write; the checks
come in the order of 40_fetch_execute.md R79 (42_alu_mul.md R96). -/
def execMul (ra rb : Operand) (s : State) : Host.Outcome State Fault Refusal :=
  s.settle do
    let a ← need ra (s.pc + 1#9)
    let b ← need rb (s.pc + 2#9)
    let r ← regidx a
    let q ← regidx b
    let res ← aluApply aluMul (s.reg r) (s.reg q)
    return (s.setReg r res).advance 3#9

end Sys2Proof.Machine
end

