-- ==== Sys2Proof/Machine/Dispatch.lean ====
section
/-! DEFINITION. The handler of each instruction (40_fetch_execute.md R76, R80). -/

namespace Sys2Proof.Machine

/-- One handler for each constructor (40_fetch_execute.md R80). -/
def exec (i : Instr) (s : State) : Host.Outcome State Fault Refusal :=
  match i with
  | .ldi ra imm => Sys2Proof.Machine.execLdi ra imm s
  | .prn ra => Sys2Proof.Machine.execPrn ra s
  | .mul ra rb => Sys2Proof.Machine.execMul ra rb s
  | .hlt => Sys2Proof.Machine.execHlt s

end Sys2Proof.Machine
end

