-- ==== Sys2Proof/WellFormed.lean ====
section
/-! DEFINITION. Which decoded instructions are whole: every operand byte that the format holds is there (30_encoding.md R56 to R59). -/

namespace Sys2Proof

/-- Every operand byte of the instruction's format is present. A register operand of 8 or more is no ill-formed
encoding: it decodes, and the handler faults on it (30_encoding.md R65). -/
def WellFormed : Instr → Bool
  | .ldi ra imm => ra.isSome && imm.isSome
  | .prn ra => ra.isSome
  | .mul ra rb => ra.isSome && rb.isSome
  | .hlt => true

end Sys2Proof
end

