-- ==== Sys2Proof/Decode.lean ====
section
/-! DEFINITION. The opcode map, the decoder and the encoder (30_encoding.md R56 to R66, R72), and the words of spec/opcode_table.json as bytes. -/

namespace Sys2Proof

/-- The opcode of LDI (30_encoding.md R60). -/
def opLdi : Byte := 0b10000010#8
/-- The opcode of PRN (30_encoding.md R60). -/
def opPrn : Byte := 0b01000111#8
/-- The opcode of MUL (30_encoding.md R60). -/
def opMul : Byte := 0b10100010#8
/-- The opcode of HLT (30_encoding.md R60). -/
def opHlt : Byte := 0b00000001#8

/-- The dispatch table: all 8 bits of the opcode byte are matched, and the operands play no part in the choice
(10_state.md R29; 30_encoding.md R60, R72). `none` is an unrecognized opcode (R64). -/
def lookup (op : Byte) (a b : Operand) : Option Instr :=
  if op = opLdi then some (.ldi a b)
  else if op = opPrn then some (.prn a)
  else if op = opMul then some (.mul a b)
  else if op = opHlt then some .hlt
  else none

/-- Why bytes are no instruction. -/
inductive Reject where
  /-- There is no opcode byte. -/
  | noOpcode
  /-- The opcode byte is none of the four (30_encoding.md R64). -/
  | unrecognizedOpcode (op : Byte)
  deriving DecidableEq, Repr

/-- The instruction that bytes at ascending addresses begin with, opcode first (20_memory.md R43). An operand byte
that is not there is a latch of `none`; bytes beyond the instruction are ignored (30_encoding.md R63). -/
def decode : List Byte → Except Reject Instr
  | [] => .error .noOpcode
  | op :: rest =>
    match lookup op rest[0]? rest[1]? with
    | some i => .ok i
    | none => .error (.unrecognizedOpcode op)

/-- The bytes of an instruction, opcode first (30_encoding.md R57 to R59). -/
def encode : Instr → List Byte
  | .ldi ra imm => opLdi :: (ra.toList ++ imm.toList)
  | .prn ra => opPrn :: ra.toList
  | .mul ra rb => opMul :: (ra.toList ++ rb.toList)
  | .hlt => [opHlt]

/-- The instruction's length in bytes, fixed by its opcode (30_encoding.md R56, R66). -/
def Instr.length : Instr → Nat
  | .ldi _ _ => 3
  | .prn _ => 2
  | .mul _ _ => 3
  | .hlt => 1

/-- The three bytes of a word of spec/opcode_table.json, first byte in the low bits, bits from `nbits` up zero. -/
def tableBytes (nbits w : Nat) : List Byte :=
  let v := w % 2 ^ nbits
  [BitVec.ofNat 8 v, BitVec.ofNat 8 (v / 256), BitVec.ofNat 8 (v / 65536)]

/-- What the decoder reads from a word of spec/opcode_table.json. -/
def decodeTableWord (nbits w : Nat) : Option Instr :=
  (decode (tableBytes nbits w)).toOption

end Sys2Proof
end

