-- ==== Sys2Proof/Machine/Fetch.lean ====
section
/-! DEFINITION. Opcode fetch, operand fetch and table lookup (40_fetch_execute.md R74 to R76). -/

namespace Sys2Proof.Machine

/-- The table's answer as the step takes it: an opcode without an entry raises UnrecognizedOpcode with the opcode
byte (40_fetch_execute.md R76). -/
def recognize (op : Byte) (a b : Operand) : Except Raised Instr :=
  match lookup op a b with
  | some i => .ok i
  | none => .error { fault := .unrecognizedOpcode, value := op.setWidth 9 }

/-- The instruction at `pc`: one architectural read of the opcode, two speculative operand reads whatever the
opcode is, and the lookup (40_fetch_execute.md R74 to R76). -/
def State.fetch (s : State) : Except Raised Instr := do
  let op ← s.memRead s.pc
  recognize op (s.opFetch (s.pc + 1#9)) (s.opFetch (s.pc + 2#9))

/-- A step action: the core steps only while RUNNING, and otherwise nothing changes (40_fetch_execute.md R73).
`handler` is what runs a decoded instruction. -/
def State.stepWith (handler : Instr → State → Host.Outcome State Fault Refusal) (s : State) :
    Host.Outcome State Fault Refusal :=
  match s.run with
  | .running =>
    match s.fetch with
    | .ok i => handler i s
    | .error e => .next (s.raise e)
  | .idle => .next s
  | .halted => .next s
  | .faulted => .next s

/-- A table word laid out at `pc`, with the core RUNNING: what the host's load and start bring about (log entry 1). -/
def State.withBytesAtPc (s : State) (bs : List Byte) : State :=
  { s with mem := Memory.place s.mem s.pc.toNat bs, run := .running }

end Sys2Proof.Machine
end

