-- ==== Sys2Proof/Machine/Step.lean ====
section
/-! DEFINITION. The one step of the core (40_fetch_execute.md R80), and a word placed where it fetches next. -/

namespace Sys2Proof.Machine

/-- One `step` action of the host (10_state.md R37; 40_fetch_execute.md R73, R80). -/
def step (s : State) : Host.Outcome State Fault Refusal := s.stepWith exec

/-- `s` with the instruction of a table word stored at `pc` and the core RUNNING (log entry 1). -/
def State.withFetchWord (s : State) (nbits w : Nat) : State := s.withBytesAtPc (tableBytes nbits w)

end Sys2Proof.Machine
end

