-- ==== Sys2Proof/Machine/HostPort.lean ====
section
/-! DEFINITION. The host's interfaces to the core: control inputs, memory write, status and debug reads (10_state.md R32, R35 to R37; 60_exceptions.md R122). -/

namespace Sys2Proof.Machine

/-- What the host can do to the core (10_state.md R37; 60_exceptions.md R122). -/
inductive HostAction where
  /-- Put every piece of state to its reset value. -/
  | reset
  /-- Move IDLE to RUNNING. -/
  | start
  /-- One step action. -/
  | step
  /-- One byte on the memory write interface: `mw_addr`, `mw_data` (10_state.md R32). -/
  | write (addr : Addr) (v : Byte)
  deriving DecidableEq, Repr

/-- `start`: accepted in IDLE only, ignored elsewhere (70_reset_and_hazards.md R125). -/
def State.start (s : State) : State :=
  match s.run with
  | .idle => { s with run := .running }
  | .running => s
  | .halted => s
  | .faulted => s

/-- `MemWrite(addr, 1, v)` by the host: refused at 256 and above, with the core's state unchanged (20_memory.md
R41); outside IDLE the host has no such move (20_memory.md R51; 60_exceptions.md R122; log entry 5). -/
def hostWrite (addr : Addr) (v : Byte) (s : State) : Host.Outcome State Fault Refusal :=
  match s.run with
  | .idle =>
    if addr.toNat < Config.memSize then .next (s.setMem addr.toNat v)
    else .refused (.writeOutOfRange addr)
  | .running => .refused .writeOutsideIdle
  | .halted => .refused .writeOutsideIdle
  | .faulted => .refused .writeOutsideIdle

/-- The effect of a host action. `reset` acts in every run state (70_reset_and_hazards.md R123). -/
def act (h : HostAction) (s : State) : Host.Outcome State Fault Refusal :=
  match h with
  | .reset => .next State.reset
  | .start => .next s.start
  | .step => step s
  | .write addr v => hostWrite addr v s

/-- What the status interface shows, at all times (10_state.md R35). -/
structure Status where
  run        : BitVec 2
  faultCause : BitVec 3
  faultPc    : Addr
  faultValue : BitVec 9
  deriving DecidableEq, Repr

/-- The status interface (10_state.md R35). -/
def State.status (s : State) : Status where
  run        := s.run.code
  faultCause := s.faultCauseCode
  faultPc    := s.fault.pc
  faultValue := s.fault.value

/-- What the debug interface can be asked for (10_state.md R36). -/
inductive DebugQuery where
  | pc
  | reg (i : Fin 8)
  | mem (a : Byte)
  deriving DecidableEq, Repr

/-- A debug read: the value asked for, in any run state. It is no action: it answers no state, so it changes none
(10_state.md R36; 60_exceptions.md R120). -/
def State.debugRead (s : State) : DebugQuery → BitVec 9
  | .pc => s.pc
  | .reg i => (s.reg i).setWidth 9
  | .mem a => (s.memAt a.toNat).setWidth 9

end Sys2Proof.Machine
end

