-- ==== Sys2Proof/Machine/Loader.lean ====
section
/-! DEFINITION. The host's loader: the program file's text, the image in memory, the launch state (30_encoding.md R71; 60_exceptions.md R116; 70_reset_and_hazards.md R126, R129). -/

namespace Sys2Proof.Machine

/-! ### The program file -/

/-- What one line of a program file holds (30_encoding.md R71). -/
inductive Line where
  /-- Nothing, or only a comment. -/
  | skip
  /-- A binary literal of at most 8 digits. -/
  | byte (v : Byte)
  /-- Anything else (60_exceptions.md R116). -/
  | malformed
  deriving DecidableEq, Repr

/-- The lines of a text: they end at line feeds. -/
def splitLines : List Char → List (List Char)
  | [] => [[]]
  | c :: cs =>
    if c = '\n' then [] :: splitLines cs
    else
      match splitLines cs with
      | [] => [[c]]
      | l :: ls => (c :: l) :: ls

/-- The characters that may stand around a literal (log entry 6). -/
def isBlank (c : Char) : Bool := c == ' ' || c == '\t' || c == '\r'

/-- A line without blanks at either end. -/
def trim (l : List Char) : List Char :=
  ((l.dropWhile isBlank).reverse.dropWhile isBlank).reverse

/-- The value of binary digits, most significant first (00_scope.md R7). -/
def binaryValue (ds : List Char) : Nat :=
  ds.foldl (fun n c => 2 * n + (if c = '1' then 1 else 0)) 0

/-- One line read: a comment runs from `#` to the end of the line; a literal has at most 8 binary digits, and
missing digits on the left are 0 (30_encoding.md R71; 60_exceptions.md R116; 92_eei_decisions.md D31). -/
def parseLine (l : List Char) : Line :=
  let ds := trim (l.takeWhile (fun c => c != '#'))
  if ds.isEmpty then .skip
  else if ds.all (fun c => c == '0' || c == '1') && decide (ds.length ≤ 8) then
    .byte (BitVec.ofNat 8 (binaryValue ds))
  else .malformed

/-- The image that lines spell, in file order; `none` if some line is malformed. -/
def parseLines : List (List Char) → Option (List Byte)
  | [] => some []
  | l :: ls =>
    match parseLine l with
    | .skip => parseLines ls
    | .byte v => (parseLines ls).map (v :: ·)
    | .malformed => none

/-- The image that a program file spells: its n-th byte line is byte n (30_encoding.md R71). -/
def parseImage (text : List Char) : Option (List Byte) := parseLines (splitLines text)

/-! ### The load -/

/-- The image written byte by byte from address `n` on, in file order, through the memory write interface, up to the
first write that is refused (70_reset_and_hazards.md R126; 20_memory.md R41). -/
def loadFrom : Nat → List Byte → State → State × Option Refusal
  | _, [], s => (s, none)
  | n, v :: vs, s =>
    match hostWrite (BitVec.ofNat 9 n) v s with
    | .next t => loadFrom (n + 1) vs t
    | .refused r => (s, some r)
    | .fault _ => (s, none)

/-- How a load ends. -/
inductive LoadResult where
  /-- The whole image is in memory. -/
  | loaded (s : State)
  /-- The load failed, and leaves the core in this state, IDLE and not to be started (60_exceptions.md R116). -/
  | failed (r : Fault) (left : State)
  /-- The core is not IDLE: the host has no move (70_reset_and_hazards.md R126; log entry 5). -/
  | noMove
  deriving DecidableEq, Repr

/-- The memory that a load leaves which fails on a malformed line: free values (log entry 7). -/
def Memory.afterMalformed (text : List Char) : Memory :=
  Memory.place [] 0 ((List.range Config.memSize).map (Config.failedLoadByte text))

/-- The state that a load leaves which fails on a malformed line: no fault record is written and the core stays
IDLE (60_exceptions.md R116). -/
def State.afterMalformed (s : State) (text : List Char) : State := { s with mem := Memory.afterMalformed text }

/-- The load of an image while IDLE: an image that is too long is written up to the refused write at address 256
(60_exceptions.md R116; 92_eei_decisions.md D20). -/
def loadImage (img : List Byte) (s : State) : LoadResult :=
  match loadFrom 0 img s with
  | (t, none) => .loaded t
  | (t, some _) => .failed .imageTooLarge t

/-- The loader, given the file's text, or `none` if it cannot be opened: the whole text is read before the first
write (60_exceptions.md R116; log entry 7). -/
def hostLoad (file : Option (List Char)) (s : State) : LoadResult :=
  match s.run with
  | .idle =>
    match file with
    | none => .failed .programNotFound s
    | some text =>
      match parseImage text with
      | none => .failed .malformedInstruction (s.afterMalformed text)
      | some img => loadImage img s
  | .running => .noMove
  | .halted => .noMove
  | .faulted => .noMove

/-- The launch state of an image: after reset, load and start (70_reset_and_hazards.md R129). -/
def launch (img : List Byte) : State :=
  { State.reset with mem := Memory.place [] 0 img, run := .running }

end Sys2Proof.Machine
end

