-- ==== Sys2Proof/Machine/HostRun.lean ====
section
/-! DEFINITION. The host's run of the core: steps under a budget, the outcome, the printed text (60_exceptions.md R117 to R119). -/

namespace Sys2Proof.Machine

/-- At most `budget` steps, none once the core is no longer RUNNING; a host stop leaves the core as the last step
left it (60_exceptions.md R119). -/
def hostRun : Nat → State → State
  | 0, s => s
  | k + 1, s =>
    match s.run with
    | .running =>
      match step s with
      | .next t => hostRun k t
      | .fault _ => s
      | .refused _ => s
    | .idle => s
    | .halted => s
    | .faulted => s

/-- How the host classifies a core whose steps it has ended, from `run` and `fault_cause` (60_exceptions.md R118).
An IDLE core has not been run, and FAULTED without a cause is no state that a step leaves: neither has an outcome. -/
def classify (s : State) : Option RunOutcome :=
  match s.run with
  | .halted => some .halted
  | .faulted => s.fault.cause.map .fault
  | .running => some .budgetExceeded
  | .idle => none

/-- What the host has at the end of a session: the outcome and the state that the core is left in. -/
structure Report where
  outcome : Option RunOutcome
  final   : State
  deriving DecidableEq, Repr

/-- The host's part after a load: start and run what was loaded, report what failed (60_exceptions.md R116, R118). -/
def afterLoad (budget : Nat) (s : State) : LoadResult → Report
  | .loaded t => { outcome := classify (hostRun budget t.start), final := hostRun budget t.start }
  | .failed r left => { outcome := some (.loadFailed r), final := left }
  | .noMove => { outcome := none, final := s }

/-- A whole session, whatever the core did before: reset, load, start, run under a budget
(70_reset_and_hazards.md R127; 60_exceptions.md R118, R122). -/
def session (file : Option (List Char)) (budget : Nat) (s : State) : Report :=
  match act .reset s with
  | .next t => afterLoad budget t (hostLoad file t)
  | .fault _ => { outcome := none, final := s }
  | .refused _ => { outcome := none, final := s }

/-- A decimal digit. -/
def digit (n : Nat) : Char := Char.ofNat (48 + n)

/-- The decimal text of a byte: unsigned, no leading zeros, no padding (60_exceptions.md R117). -/
def decimal (v : Byte) : List Char :=
  let n := v.toNat
  if n < 10 then [digit n]
  else if n < 100 then [digit (n / 10), digit (n % 10)]
  else [digit (n / 100), digit (n / 10 % 10), digit (n % 10)]

/-- What the host writes for an event (60_exceptions.md R117). -/
def eventText (v : Byte) : List Char := decimal v ++ ['\n']

/-- What the host writes for the output trace, in the order of the events (60_exceptions.md R117). -/
def printed (out : List Byte) : List Char := out.flatMap eventText

/-- The host's open parameters: an exit status and a message for each outcome, distinct for distinct outcomes. The
spec gives no values, so a statement quantifies over them (60_exceptions.md R118; 92_eei_decisions.md D17; log entry 8). -/
structure HostReporting where
  exitCode : RunOutcome → Int
  message  : RunOutcome → String
  exitCode_injective : Function.Injective exitCode
  message_injective  : Function.Injective message

end Sys2Proof.Machine
end

