-- ==== Sys2Proof/Safety.lean ====
section
/-! DEFINITION. The terms in which statements speak of a good state and of what a step must do: the invariant, terminal states, the bytes at `pc`, the spec's order of faults. -/

namespace Sys2Proof.Machine

/-- HALTED or FAULTED: only reset leaves such a state (10_state.md R24). -/
abbrev State.Terminal (s : State) : Prop := s.run = .halted ∨ s.run = .faulted

/-- An opcode byte outside the opcode map (30_encoding.md R64). -/
abbrev IllegalOpcode (op : Byte) : Prop :=
  op ≠ 0b10000010#8 ∧ op ≠ 0b01000111#8 ∧ op ≠ 0b10100010#8 ∧ op ≠ 0b00000001#8

/-- The fault record is written together with FAULTED and is 0 otherwise (10_state.md R25). -/
abbrev State.RecordTogether (s : State) : Prop :=
  (s.run = .faulted ↔ s.fault.cause ≠ none) ∧
  (s.fault.cause = none → s.fault.pc = 0#9 ∧ s.fault.value = 0#9) ∧
  (s.fault.cause ≠ none → s.fault.pc = s.pc)

/-- The recorded value is what the cause says (60_exceptions.md R103), the recorded address is 256 (R107), and
UnsupportedAluOperation is never recorded (R109). -/
abbrev State.RecordValue (s : State) : Prop :=
  (s.fault.cause = some .unrecognizedOpcode →
    s.pc.toNat < 256 ∧ IllegalOpcode (s.memAt s.pc.toNat) ∧
      s.fault.value = (s.memAt s.pc.toNat).setWidth 9) ∧
  (s.fault.cause = some .outOfRangeAddress → s.fault.value = 256#9 ∧ 254 ≤ s.pc.toNat) ∧
  (s.fault.cause = some .outOfRangeRegister →
    8 ≤ s.fault.value.toNat ∧
      (s.fault.value = (s.memAt (s.pc.toNat + 1)).setWidth 9 ∨
       s.fault.value = (s.memAt (s.pc.toNat + 2)).setWidth 9)) ∧
  s.fault.cause ≠ some .unsupportedAluOperation

/-- The invariant of the machine: memory is canonical, `pc` is 0 to 256 (10_state.md R22), and the fault record
says what the spec lets it say. -/
abbrev State.Inv (s : State) : Prop :=
  Memory.wf s.mem = true ∧ s.pc.toNat ≤ 256 ∧ s.RecordTogether ∧ s.RecordValue

/-- The bytes that stand at `pc`, at most three, none past the last cell. -/
def State.codeBytes (s : State) : List Byte :=
  (((List.range 3).map (s.pc.toNat + ·)).filter (· < 256)).map s.memAt

/-- The fault that a step of a RUNNING core takes, by the spec's list of priorities, from the bytes in memory
alone (60_exceptions.md R106). LDI, PRN and MUL use operand_a, as a register index; LDI and MUL use operand_b, MUL
as a register index. UnsupportedAluOperation, the last of the list, applies to no step. -/
def State.firstFault (s : State) : Option Raised :=
  let p := s.pc.toNat
  let op := s.memAt p
  let a := s.memAt (p + 1)
  let b := s.memAt (p + 2)
  let usesA : Prop := op = 0x82#8 ∨ op = 0x47#8 ∨ op = 0xA2#8
  let usesB : Prop := op = 0x82#8 ∨ op = 0xA2#8
  if 256 ≤ p then some ⟨.outOfRangeAddress, s.pc⟩
  else if IllegalOpcode op then some ⟨.unrecognizedOpcode, op.setWidth 9⟩
  else if usesA ∧ 256 ≤ p + 1 then some ⟨.outOfRangeAddress, BitVec.ofNat 9 (p + 1)⟩
  else if usesB ∧ 256 ≤ p + 2 then some ⟨.outOfRangeAddress, BitVec.ofNat 9 (p + 2)⟩
  else if usesA ∧ 8 ≤ a.toNat then some ⟨.outOfRangeRegister, a.setWidth 9⟩
  else if op = 0xA2#8 ∧ 8 ≤ b.toNat then some ⟨.outOfRangeRegister, b.setWidth 9⟩
  else none

/-- Whether the state after a step differs only in `run` and the fault record, which says this fault at this `pc`. -/
abbrev FaultedFrom (s t : State) (f : CoreFault) (v : BitVec 9) : Prop :=
  t.run = .faulted ∧ t.fault = ⟨some f, s.pc, v⟩ ∧
    t.x = s.x ∧ t.pc = s.pc ∧ t.mem = s.mem ∧ t.out = s.out

/-- The eight binary digits of a byte, most significant first, and a line feed (30_encoding.md R71). -/
def spellByte (v : Byte) : List Char :=
  ((List.range 8).map (fun k => if v.getLsbD (7 - k) then '1' else '0')) ++ ['\n']

/-- A program file that spells an image, one byte a line (30_encoding.md R71). -/
def spellImage (img : List Byte) : List Char := img.flatMap spellByte

end Sys2Proof.Machine
end

