-- ==== Sys2Proof/Certificates/Slice0/Obligations.lean ====
section
/-! DEFINITION. The statements for the provers. -/

open Sys2Proof Sys2Proof.Machine

/-! ### Decoding and encoding -/

/-- The bytes of every whole instruction, whatever bytes follow them, decode to that instruction with every operand
(30_encoding.md R56 to R63). -/
def Obligations.EncodedInstructionDecodes : Prop :=
  ∀ (i : Instr) (rest : List Byte), WellFormed i = true → decode (encode i ++ rest) = .ok i

/-- Bytes that decode to an instruction begin with its encoding, and the instruction is whole exactly when the bytes
reach its length (30_encoding.md R56 to R63). -/
def Obligations.DecodedInstructionIsItsBytes : Prop :=
  ∀ (bs : List Byte) (i : Instr), decode bs = .ok i →
    encode i <+: bs ∧ (WellFormed i = true ↔ i.length ≤ bs.length)

/-- A few words, written out from the opcode map of 30_encoding.md R60 and the formats of R57 to R59. -/
def Obligations.OpcodeMapWords : Prop :=
  decode [0b10000010#8, 0b00000000#8, 0b00001000#8] = .ok (.ldi (some 0#8) (some 8#8)) ∧
  decode [0b01000111#8, 0b00000000#8] = .ok (.prn (some 0#8)) ∧
  decode [0b10100010#8, 0b00000000#8, 0b00000001#8] = .ok (.mul (some 0#8) (some 1#8)) ∧
  decode [0b00000001#8] = .ok .hlt ∧
  (Instr.ldi none none).length = 3 ∧ (Instr.prn none).length = 2 ∧
  (Instr.mul none none).length = 3 ∧ Instr.hlt.length = 1

/-- 30_encoding.md R64: the other 252 opcode bytes are illegal, and fetching one raises UnrecognizedOpcode. -/
def Obligations.OtherOpcodesAreIllegal : Prop :=
  (∀ (op : Byte) (rest : List Byte), IllegalOpcode op →
    decode (op :: rest) = .error (.unrecognizedOpcode op)) ∧
  (∀ s : State, s.run = .running → s.pc.toNat < 256 → IllegalOpcode (s.memAt s.pc.toNat) →
    ∃ t, step s = .next t ∧
      FaultedFrom s t .unrecognizedOpcode ((s.memAt s.pc.toNat).setWidth 9)) ∧
  ((List.range 256).filter (fun n => decide (IllegalOpcode (BitVec.ofNat 8 n)))).length = 252 ∧
  (∀ op : Byte, IllegalOpcode op ↔
    (op.toNat = 0 ∨ (0x02 ≤ op.toNat ∧ op.toNat ≤ 0x46) ∨ (0x48 ≤ op.toNat ∧ op.toNat ≤ 0x81) ∨
     (0x83 ≤ op.toNat ∧ op.toNat ≤ 0xA1) ∨ 0xA3 ≤ op.toNat))

/-- 30_encoding.md R63: the bytes beyond the instruction's length do not matter. A RUNNING core whose memory is
replaced by one that agrees on the instruction's own bytes steps the same way, and the next instruction starts at
`pc + length`. -/
def Obligations.TrailingBytesDoNotMatter : Prop :=
  ∀ (s t : State) (m : Memory) (i : Instr), s.run = .running → s.fetch = .ok i → step s = .next t →
    (∀ k, k < i.length → s.pc.toNat + k < 256 → Memory.read m (s.pc.toNat + k) = s.memAt (s.pc.toNat + k)) →
    step { s with mem := m } = .next { t with mem := m } ∧
      (t.run = .running → t.pc.toNat = s.pc.toNat + i.length)

/-! ### The step -/

/-- A step of a RUNNING core is `exec` of the instruction that the bytes at `pc` decode to, with nothing around it,
also where the end of memory cuts its operands off (40_fetch_execute.md R80). -/
def Obligations.StepRunsTheDecodedInstruction : Prop :=
  ∀ (s : State) (i : Instr), s.run = .running → decode s.codeBytes = .ok i → step s = exec i s

/-- A table word placed where the core fetches next is the instruction that the next step runs, wherever it fits
(model's operation; log entry 1). -/
def Obligations.PlacedWordIsTheNextInstruction : Prop :=
  ∀ (s : State) (nbits w : Nat) (i : Instr), Memory.wf s.mem = true → s.pc.toNat ≤ 253 →
    decodeTableWord nbits w = some i →
    step (s.withFetchWord nbits w) = exec i (s.withFetchWord nbits w)

/-- 40_fetch_execute.md R76: an opcode with an entry runs its handler with the two latches, one without raises
UnrecognizedOpcode with the opcode byte. -/
def Obligations.DispatchByTheTable : Prop :=
  ∀ s : State, s.run = .running → s.pc.toNat < 256 →
    let op := s.memAt s.pc.toNat
    let a := s.opFetch (s.pc + 1#9)
    let b := s.opFetch (s.pc + 2#9)
    (op = 0x82#8 → step s = exec (.ldi a b) s) ∧ (op = 0x47#8 → step s = exec (.prn a) s) ∧
    (op = 0xA2#8 → step s = exec (.mul a b) s) ∧ (op = 0x01#8 → step s = exec .hlt s) ∧
    (op ≠ 0x82#8 → op ≠ 0x47#8 → op ≠ 0xA2#8 → op ≠ 0x01#8 →
      ∃ t, step s = .next t ∧ FaultedFrom s t .unrecognizedOpcode (op.setWidth 9))

/-- 40_fetch_execute.md R73: outside RUNNING a step action changes nothing. -/
def Obligations.NoStepUnlessRunning : Prop :=
  ∀ s : State, s.run = .idle ∨ s.run = .halted ∨ s.run = .faulted → step s = .next s

/-- 40_fetch_execute.md R74 and R75: the opcode fetch faults from 256 on; the two operand fetches are made whatever
the opcode is, and past the last cell they find nothing and do not fault. -/
def Obligations.FetchReadsThreeBytes : Prop :=
  (∀ s : State, s.run = .running → 256 ≤ s.pc.toNat →
    ∃ t, step s = .next t ∧ FaultedFrom s t .outOfRangeAddress s.pc) ∧
  (∀ s : State, s.pc.toNat < 256 →
    s.fetch = recognize (s.memAt s.pc.toNat)
      (if s.pc.toNat + 1 < 256 then some (s.memAt (s.pc.toNat + 1)) else none)
      (if s.pc.toNat + 2 < 256 then some (s.memAt (s.pc.toNat + 2)) else none))

/-- 20_memory.md R40: the architectural read; an operand that a handler uses, and the opcode fetch, are such reads. -/
def Obligations.ArchitecturalReadIsChecked : Prop :=
  ∀ (s : State) (a : Addr),
    (a.toNat < 256 → s.memRead a = .ok (s.memAt a.toNat)) ∧
    (256 ≤ a.toNat → s.memRead a = .error ⟨.outOfRangeAddress, a⟩) ∧
    need (s.opFetch a) a = s.memRead a ∧
    s.fetch = (s.memRead s.pc >>= fun op =>
      recognize op (s.opFetch (s.pc + 1#9)) (s.opFetch (s.pc + 2#9))) ∧
    (256 ≤ s.pc.toNat → s.fetch = .error ⟨.outOfRangeAddress, s.pc⟩)

/-- 40_fetch_execute.md R77: an operand past address 255 faults only when its handler uses it. -/
def Obligations.OperandPastMemoryFaultsWhenUsed : Prop :=
  (∀ (b : Byte) (a : Addr), need (some b) a = .ok b) ∧
  (∀ a : Addr, need none a = .error ⟨.outOfRangeAddress, a⟩) ∧
  (∀ s : State, s.run = .running → s.pc.toNat = 254 ∨ s.pc.toNat = 255 →
    s.memAt s.pc.toNat = 0x82#8 ∨ s.memAt s.pc.toNat = 0xA2#8 →
    ∃ t, step s = .next t ∧ FaultedFrom s t .outOfRangeAddress 256#9) ∧
  (∀ s : State, s.run = .running → s.pc.toNat = 255 → s.memAt 255 = 0x47#8 →
    ∃ t, step s = .next t ∧ FaultedFrom s t .outOfRangeAddress 256#9) ∧
  (∀ s : State, s.run = .running → s.pc.toNat = 255 → s.memAt 255 = 0x01#8 → step s = .next s.halt) ∧
  (∀ s : State, s.run = .running → s.pc.toNat = 254 → s.memAt 254 = 0x47#8 →
    ∃ t, step s = .next t ∧ (t.run = .running ∨ t.fault.cause = some .outOfRangeRegister))

/-- 40_fetch_execute.md R78: a register operand is the whole byte, checked against 8. -/
def Obligations.RegisterIndexIsTheWholeByte : Prop :=
  (∀ v : Byte, v.toNat < 8 → ∃ i : Fin 8, regidx v = .ok i ∧ i.val = (v.extractLsb' 0 3).toNat ∧ i.val = v.toNat) ∧
  (∀ v : Byte, 8 ≤ v.toNat → regidx v = .error ⟨.outOfRangeRegister, v.setWidth 9⟩)

/-- 40_fetch_execute.md R81: a step completes, with all of its handler's effects together, or halts, or raises. -/
def Obligations.StepIsAtomic : Prop :=
  ∀ s : State, s.run = .running → ∃ t, step s = .next t ∧
    ((t.run = .running ∧ t.fault = s.fault ∧ t.mem = s.mem ∧
        ∃ i, s.fetch = .ok i ∧ exec i s = .next t ∧
          ((∃ a v r, i = .ldi (some a) (some v) ∧ a.toNat = Fin.val r ∧
              t = { s with x := s.x.set r v, pc := s.pc + 3#9 }) ∨
           (∃ a r, i = .prn (some a) ∧ a.toNat = Fin.val r ∧
              t = { s with out := s.out ++ [s.reg r], pc := s.pc + 2#9 }) ∨
           (∃ a b r q v, i = .mul (some a) (some b) ∧ a.toNat = Fin.val r ∧ b.toNat = Fin.val q ∧
              alu 1#2 (s.reg r) (s.reg q) = some v ∧
              t = { s with x := s.x.set r v, pc := s.pc + 3#9 }))) ∨
     t = { s with run := .halted } ∨
     (∃ f v, FaultedFrom s t f v))

/-- 40_fetch_execute.md R82: after a step that completes, the next instruction is at `pc + length`. -/
def Obligations.ControlFlowIsSequential : Prop :=
  ∀ s t : State, s.run = .running → step s = .next t → t.run = .running →
    ∃ i, s.fetch = .ok i ∧ t.pc.toNat = s.pc.toNat + i.length ∧
      ((∃ a b, i = .ldi a b ∧ i.length = 3) ∨ (∃ a, i = .prn a ∧ i.length = 2) ∨
       (∃ a b, i = .mul a b ∧ i.length = 3))

/-- The frame of every step: no step writes memory; only PRN emits, one event, a register's value; only LDI and MUL
write a register, one (10_state.md R19, R30; 20_memory.md R39). -/
def Obligations.FrameOfEveryStep : Prop :=
  ∀ s t : State, step s = .next t →
    t.mem = s.mem ∧
    ((t.x = s.x ∧ t.out = s.out) ∨
     (s.memAt s.pc.toNat = 0x47#8 ∧ t.x = s.x ∧ ∃ r, t.out = s.out ++ [s.reg r]) ∨
     ((s.memAt s.pc.toNat = 0x82#8 ∨ s.memAt s.pc.toNat = 0xA2#8) ∧ t.out = s.out ∧
        ∃ r, ∀ j, j ≠ r → t.reg j = s.reg j))

/-! ### The instructions: where each completes, what it gives, what it leaves unchanged -/

/-- LDI completes with both operands there and a register index below 8: its result and its frame
(41_ldi_prn.md R85). -/
def Obligations.LdiCompletes : Prop :=
  ∀ (s : State) (a v : Byte) (h : a.toNat < 8),
    ∃ t, exec (.ldi (some a) (some v)) s = .next t ∧
      t.reg ⟨a.toNat, h⟩ = v ∧ (∀ j : Fin 8, j.val ≠ a.toNat → t.reg j = s.reg j) ∧
      t.pc = s.pc + 3#9 ∧ (s.pc.toNat ≤ 253 → t.pc.toNat = s.pc.toNat + 3) ∧
      t.run = s.run ∧ t.fault = s.fault ∧ t.out = s.out ∧ (∀ k, t.memAt k = s.memAt k)

/-- PRN completes with its operand there and a register index below 8: its event and its frame
(41_ldi_prn.md R88). -/
def Obligations.PrnCompletes : Prop :=
  ∀ (s : State) (a : Byte) (h : a.toNat < 8),
    ∃ t, exec (.prn (some a)) s = .next t ∧
      t.out = s.out ++ [s.reg ⟨a.toNat, h⟩] ∧ (∀ j : Fin 8, t.reg j = s.reg j) ∧
      t.pc = s.pc + 2#9 ∧ (s.pc.toNat ≤ 254 → t.pc.toNat = s.pc.toNat + 2) ∧
      t.run = s.run ∧ t.fault = s.fault ∧ (∀ k, t.memAt k = s.memAt k)

/-- MUL completes with both operands there and both register indices below 8: the product modulo 256 of the values
that the two registers had before, also where both operands name one register; and its frame (42_alu_mul.md R92, R96). -/
def Obligations.MulCompletes : Prop :=
  ∀ (s : State) (a b : Byte) (ha : a.toNat < 8) (hb : b.toNat < 8),
    ∃ t, exec (.mul (some a) (some b)) s = .next t ∧
      (t.reg ⟨a.toNat, ha⟩).toNat =
        (s.reg ⟨a.toNat, ha⟩).toNat * (s.reg ⟨b.toNat, hb⟩).toNat % 256 ∧
      (∀ j : Fin 8, j.val ≠ a.toNat → t.reg j = s.reg j) ∧
      t.pc = s.pc + 3#9 ∧ (s.pc.toNat ≤ 253 → t.pc.toNat = s.pc.toNat + 3) ∧
      t.run = s.run ∧ t.fault = s.fault ∧ t.out = s.out ∧ (∀ k, t.memAt k = s.memAt k)

/-- HLT completes in every state: `run` becomes HALTED and nothing else changes (43_hlt.md R100). -/
def Obligations.HltCompletes : Prop :=
  ∀ s : State, ∃ t, exec .hlt s = .next t ∧ t.run = .halted ∧ t.pc = s.pc ∧ t.fault = s.fault ∧
    t.out = s.out ∧ (∀ j : Fin 8, t.reg j = s.reg j) ∧ (∀ k, t.memAt k = s.memAt k)

/-- Where LDI, PRN and MUL trap for want of an operand: OutOfRangeAddress with the address of the first operand that
is missing, and nothing else changes (41_ldi_prn.md R85, R88; 42_alu_mul.md R96). -/
def Obligations.MissingOperandTraps : Prop :=
  ∀ (s : State) (a : Byte) (o : Operand),
    (∃ t, exec (.ldi none o) s = .next t ∧ FaultedFrom s t .outOfRangeAddress (s.pc + 1#9)) ∧
    (∃ t, exec (.ldi (some a) none) s = .next t ∧ FaultedFrom s t .outOfRangeAddress (s.pc + 2#9)) ∧
    (∃ t, exec (.prn none) s = .next t ∧ FaultedFrom s t .outOfRangeAddress (s.pc + 1#9)) ∧
    (∃ t, exec (.mul none o) s = .next t ∧ FaultedFrom s t .outOfRangeAddress (s.pc + 1#9)) ∧
    (∃ t, exec (.mul (some a) none) s = .next t ∧ FaultedFrom s t .outOfRangeAddress (s.pc + 2#9))

/-- 60_exceptions.md R108: where LDI, PRN and MUL trap on a register operand of 8 or more. -/
def Obligations.RegisterOperandTraps : Prop :=
  ∀ (s : State) (a b : Byte),
    (8 ≤ a.toNat →
      (∃ t, exec (.ldi (some a) (some b)) s = .next t ∧
        FaultedFrom s t .outOfRangeRegister (a.setWidth 9)) ∧
      (∃ t, exec (.prn (some a)) s = .next t ∧ FaultedFrom s t .outOfRangeRegister (a.setWidth 9)) ∧
      (∃ t, exec (.mul (some a) (some b)) s = .next t ∧
        FaultedFrom s t .outOfRangeRegister (a.setWidth 9))) ∧
    (a.toNat < 8 → 8 ≤ b.toNat →
      ∃ t, exec (.mul (some a) (some b)) s = .next t ∧
        FaultedFrom s t .outOfRangeRegister (b.setWidth 9))

/-- 41_ldi_prn.md R87, at the step: LDI's property for every register and immediate, and the rule's example. -/
def Obligations.LdiLoadsTheImmediate : Prop :=
  (∀ (s : State) (r : Fin 8) (v : Byte), s.run = .running → s.pc.toNat ≤ 253 →
    s.memAt s.pc.toNat = 0x82#8 → s.memAt (s.pc.toNat + 1) = BitVec.ofNat 8 r.val →
    s.memAt (s.pc.toNat + 2) = v →
    ∃ t, step s = .next t ∧ t.run = .running ∧ t.reg r = v ∧ t.pc.toNat = s.pc.toNat + 3 ∧
      (∀ j, j ≠ r → t.reg j = s.reg j) ∧ t.out = s.out) ∧
  (∀ s : State, s.run = .running → s.pc = 0#9 →
    s.memAt 0 = 0x82#8 → s.memAt 1 = 0x00#8 → s.memAt 2 = 0x08#8 →
    ∃ t, step s = .next t ∧ t.reg 0 = 8#8 ∧ t.pc = 3#9)

/-- 41_ldi_prn.md R90, at the step: PRN appends one event, which the host prints as one decimal line; and the
rule's example. -/
def Obligations.PrnPrintsOneLine : Prop :=
  (∀ (s : State) (r : Fin 8), s.run = .running → s.pc.toNat ≤ 254 →
    s.memAt s.pc.toNat = 0x47#8 → s.memAt (s.pc.toNat + 1) = BitVec.ofNat 8 r.val →
    ∃ t, step s = .next t ∧ t.run = .running ∧ t.out = s.out ++ [s.reg r] ∧
      printed t.out = printed s.out ++ decimal (s.reg r) ++ ['\n'] ∧
      t.pc.toNat = s.pc.toNat + 2 ∧ (∀ j, t.reg j = s.reg j)) ∧
  (∀ s : State, s.run = .running → s.pc = 9#9 → s.reg 0 = 72#8 → s.memAt 9 = 0x47#8 → s.memAt 10 = 0x00#8 →
    ∃ t, step s = .next t ∧ t.out = s.out ++ [72#8] ∧
      printed t.out = printed s.out ++ ['7', '2', '\n'] ∧ t.pc = 11#9)

/-- 42_alu_mul.md R98, at the step: MUL's property for every pair of registers, and the rule's example. -/
def Obligations.MulWritesTheProduct : Prop :=
  (∀ (s : State) (r q : Fin 8), s.run = .running → s.pc.toNat ≤ 253 →
    s.memAt s.pc.toNat = 0xA2#8 → s.memAt (s.pc.toNat + 1) = BitVec.ofNat 8 r.val →
    s.memAt (s.pc.toNat + 2) = BitVec.ofNat 8 q.val →
    ∃ t, step s = .next t ∧ t.run = .running ∧
      (t.reg r).toNat = (s.reg r).toNat * (s.reg q).toNat % 256 ∧
      t.pc.toNat = s.pc.toNat + 3 ∧ (∀ j, j ≠ r → t.reg j = s.reg j) ∧ t.out = s.out) ∧
  (∀ s : State, s.run = .running → s.pc = 6#9 → s.reg 0 = 8#8 → s.reg 1 = 9#8 →
    s.memAt 6 = 0xA2#8 → s.memAt 7 = 0x00#8 → s.memAt 8 = 0x01#8 →
    ∃ t, step s = .next t ∧ t.reg 0 = 72#8 ∧ t.reg 1 = 9#8 ∧ t.pc = 9#9)

/-- A HLT byte at any address ends the run, and no later step changes anything (43_hlt.md R100, R101). -/
def Obligations.HaltEndsTheRun : Prop :=
  ∀ s : State, s.run = .running → s.pc.toNat < 256 → s.memAt s.pc.toNat = 0x01#8 →
    ∃ t, step s = .next t ∧ t.run = .halted ∧ t.x = s.x ∧ t.pc = s.pc ∧ t.fault = s.fault ∧
      t.mem = s.mem ∧ t.out = s.out ∧ ∀ k, Sys2Proof.core.run k t = .next t

/-! ### The ALU -/

/-- 42_alu_mul.md R91: the four operation codes. -/
def Obligations.AluOperationTable : Prop :=
  ∀ a b : Byte,
    (∃ v, alu 0#2 a b = some v ∧ v.toNat = (a.toNat + b.toNat) % 256) ∧
    (∃ v, alu 1#2 a b = some v ∧ v.toNat = (a.toNat * b.toNat) % 256) ∧
    alu 2#2 a b = none ∧ alu 3#2 a b = none

/-- 42_alu_mul.md R94: an operation code other than 0 and 1 is unsupported; a step that got it would raise
UnsupportedAluOperation with the code and write nothing; no step raises that fault. -/
def Obligations.UnsupportedOperationRaises : Prop :=
  (∀ (op : BitVec 2) (a b : Byte), op ≠ 0#2 → op ≠ 1#2 → alu op a b = none ∧
    ∀ (s : State) (k : Byte → State), ∃ t,
      s.settle (aluApply op a b >>= fun v => .ok (k v)) = .next t ∧
        FaultedFrom s t .unsupportedAluOperation (op.setWidth 9)) ∧
  (∀ s t : State, step s = .next t → s.fault.cause ≠ some .unsupportedAluOperation →
    t.fault.cause ≠ some .unsupportedAluOperation)

/-- The laws of MUL and ADD modulo 256 (42_alu_mul.md, section 3, which marks MUL's commutativity, associativity and
identity as its own derivation; ADD's follow from its exact result there). -/
def Obligations.ArithmeticLaws : Prop :=
  ∀ a b c : Byte,
    alu 1#2 a b = alu 1#2 b a ∧
    (alu 1#2 a b).bind (fun v => alu 1#2 v c) = (alu 1#2 b c).bind (fun v => alu 1#2 a v) ∧
    alu 1#2 a 1#8 = some a ∧ alu 1#2 a 0#8 = some 0#8 ∧ alu 1#2 0#8 b = some 0#8 ∧
    alu 1#2 a b = some ((a.setWidth 16 * b.setWidth 16).extractLsb' 0 8) ∧
    (a.toNat * b.toNat < 256 → ∃ v, alu 1#2 a b = some v ∧ v.toNat = a.toNat * b.toNat) ∧
    alu 0#2 a b = alu 0#2 b a ∧
    (alu 0#2 a b).bind (fun v => alu 0#2 v c) = (alu 0#2 b c).bind (fun v => alu 0#2 a v) ∧
    alu 0#2 0#8 b = some b ∧
    alu 0#2 a b = some ((a.setWidth 9 + b.setWidth 9).extractLsb' 0 8) ∧
    (a.toNat + b.toNat < 256 → ∃ v, alu 0#2 a b = some v ∧ v.toNat = a.toNat + b.toNat)

/-! ### Faults -/

/-- 60_exceptions.md R105: raising a fault writes the fault record and `run`, in one step, and nothing else. -/
def Obligations.RaiseWritesOnlyTheRecord : Prop :=
  ∀ (s : State) (e : Raised),
    s.settle (.error e) = .next (s.raise e) ∧ FaultedFrom s (s.raise e) e.fault e.value ∧
    (s.raise e).status = ⟨3#2, e.fault.code, s.pc, e.value⟩

/-- 60_exceptions.md R106: of several faults a step takes the first of the list; where none applies it completes or
halts and records none. `firstFault` reads the list from memory alone; its last entry applies to no step. -/
def Obligations.FirstFaultIsTaken : Prop :=
  ∀ s : State, s.run = .running →
    (∀ e, s.firstFault = some e → ∃ t, step s = .next t ∧ FaultedFrom s t e.fault e.value) ∧
    (s.firstFault = none → ∃ t, step s = .next t ∧ (t.run = .running ∨ t.run = .halted) ∧ t.fault = s.fault)

/-- 60_exceptions.md R104: an illegal opcode faults whatever the operand fetches find, with its own address; a
program of only blank and comment lines faults on its first step at address 0. -/
def Obligations.EmptyProgramFaults : Prop :=
  (∀ (s : State) (op : Byte) (a b : Operand), IllegalOpcode op →
    recognize op a b = .error ⟨.unrecognizedOpcode, op.setWidth 9⟩ ∧
    (s.run = .running → s.pc.toNat < 256 → s.memAt s.pc.toNat = op →
      ∃ t, step s = .next t ∧ t.fault = ⟨some .unrecognizedOpcode, s.pc, op.setWidth 9⟩)) ∧
  (∀ (text : List Char) (budget : Nat) (s : State), parseImage text = some [] → 1 ≤ budget →
    (session (some text) budget s).outcome = some (.fault .unrecognizedOpcode) ∧
    FaultedFrom (launch []) (session (some text) budget s).final .unrecognizedOpcode 0#9 ∧
    (∀ k, (session (some text) budget s).final.memAt k = 0#8))

/-! ### Invariants -/

/-- Every step keeps the invariant, from every state that meets it. -/
def Obligations.StepKeepsTheInvariant : Prop :=
  ∀ s t : State, s.Inv → step s = .next t → t.Inv

/-- Every host action that is taken keeps the invariant, from every state that meets it. -/
def Obligations.HostActionKeepsTheInvariant : Prop :=
  ∀ (h : HostAction) (s t : State), s.Inv → act h s = .next t → t.Inv

/-- The invariant holds at reset. -/
def Obligations.ResetMeetsTheInvariant : Prop := State.reset.Inv

/-- The invariant holds at the launch of every image. -/
def Obligations.LaunchMeetsTheInvariant : Prop := ∀ img : List Byte, (launch img).Inv

/-! ### Runs -/

/-- Every run from a RUNNING state has halted or faulted after 129 steps (40_fetch_execute.md, section 3, which
marks the bound as its own derivation), with at most 128 events. -/
def Obligations.RunEndsWithin129Steps : Prop :=
  ∀ s : State, s.run = .running →
    ∃ t, Sys2Proof.core.run 129 s = .next t ∧ t.Terminal ∧ t.out.length ≤ s.out.length + 128

/-- 10_state.md R24: the run state changes only by start, HLT, a fault and reset. -/
def Obligations.RunStateTransitions : Prop :=
  (∀ (h : HostAction) (s t : State), act h s = .next t →
    t.run = s.run ∨
    (s.run = .idle ∧ h = .start ∧ t.run = .running) ∨
    (s.run = .running ∧ h = .step ∧ t.run = .halted ∧ s.fetch = .ok .hlt) ∨
    (s.run = .running ∧ h = .step ∧ ∃ f v, FaultedFrom s t f v) ∨
    (h = .reset ∧ t.run = .idle)) ∧
  (∀ s : State, s.run = .idle → ∃ t, act .start s = .next t ∧ t.run = .running) ∧
  (∀ s : State, s.run = .running → s.fetch = .ok .hlt → ∃ t, act .step s = .next t ∧ t.run = .halted) ∧
  (∀ s : State, s.run = .running → ∀ e, s.firstFault = some e →
    ∃ t, act .step s = .next t ∧ t.run = .faulted) ∧
  (∀ s : State, ∃ t, act .reset s = .next t ∧ t.run = .idle) ∧
  (∀ s : State, hostRun 0 s = s)

/-- 70_reset_and_hazards.md R123: reset, in every run state, and nothing else leaves HALTED or FAULTED. -/
def Obligations.ResetPutsEveryPieceOfState : Prop :=
  (∀ s : State, ∃ t, act .reset s = .next t ∧ (∀ j, t.reg j = 0#8) ∧ t.pc = 0#9 ∧
    (∀ k, t.memAt k = 0#8) ∧ t.run = .idle ∧ t.status = ⟨0#2, 0#3, 0#9, 0#9⟩ ∧ t.out = []) ∧
  (∀ (h : HostAction) (s t : State), s.Terminal → h ≠ .reset → act h s = .next t → t = s)

/-- 70_reset_and_hazards.md R125: start acts in IDLE only, where `pc` is 0. -/
def Obligations.StartActsInIdleOnly : Prop :=
  (∀ s : State, s.run = .idle → act .start s = .next { s with run := .running }) ∧
  (∀ s : State, s.run = .running ∨ s.run = .halted ∨ s.run = .faulted → act .start s = .next s) ∧
  (State.reset.run = .idle ∧ State.reset.pc = 0#9) ∧
  (∀ (h : HostAction) (s t : State), s.run = .idle → s.pc = 0#9 → act h s = .next t → t.pc = 0#9)

/-- A host write while IDLE: it reaches one cell and keeps the canonical form; past the last cell it is refused
(20_memory.md R41). The refusal outside IDLE is the model's own (log entry 5). -/
def Obligations.HostWriteReachesOneCell : Prop :=
  ∀ (s : State) (a : Addr) (v : Byte),
    (s.run = .idle → a.toNat < 256 → Memory.wf s.mem = true →
      ∃ t, act (.write a v) s = .next t ∧ t.memAt a.toNat = v ∧
        (∀ k, k ≠ a.toNat → t.memAt k = s.memAt k) ∧ Memory.wf t.mem = true ∧
        t.x = s.x ∧ t.pc = s.pc ∧ t.run = s.run ∧ t.fault = s.fault ∧ t.out = s.out) ∧
    (s.run = .idle → 256 ≤ a.toNat → act (.write a v) s = .refused (.writeOutOfRange a)) ∧
    (s.run ≠ .idle → act (.write a v) s = .refused .writeOutsideIdle)

/-! ### The host's loader, the host's run and what it reports -/

/-- Reset, load and start give the launch state of an image that fits: the image from address 0 on, 0 elsewhere,
every other piece of state at its reset value, RUNNING (70_reset_and_hazards.md, section 2, which marks it as its own derivation). -/
def Obligations.LoadAndStartGiveLaunch : Prop :=
  ∀ img : List Byte, img.length ≤ 256 →
    ∃ t, loadImage img State.reset = .loaded t ∧ t.start = launch img ∧
      (∀ (i : Nat) (h : i < img.length), (launch img).memAt i = img[i]) ∧
      (∀ i, img.length ≤ i → (launch img).memAt i = 0#8) ∧
      (∀ j, (launch img).reg j = 0#8) ∧ (launch img).pc = 0#9 ∧
      (launch img).status = ⟨1#2, 0#3, 0#9, 0#9⟩ ∧ (launch img).out = []

/-- 60_exceptions.md R116: the three ways in which a load fails, each before any step, with the core left IDLE and no
fault recorded. A malformed text is taken with at most 256 lines that are not skipped, so that its image is not too
long as well: which error that gives is the model's choice (log entry 7). -/
def Obligations.FailedLoadLeavesTheCoreIdle : Prop :=
  (∀ s : State, s.run = .idle → hostLoad none s = .failed .programNotFound s) ∧
  (∀ (budget : Nat) (s : State), (session none budget s).outcome = some (.loadFailed .programNotFound) ∧
    (session none budget s).final = State.reset) ∧
  (∀ (text : List Char) (s : State), s.run = .idle → parseImage text = none →
    ((splitLines text).filter (fun l => decide (parseLine l ≠ .skip))).length ≤ 256 →
    ∃ t, hostLoad (some text) s = .failed .malformedInstruction t) ∧
  (∀ ls : List (List Char), (∃ l ∈ ls, parseLine l = .malformed) → parseLines ls = none) ∧
  (∀ ds : List Char, (∀ c ∈ ds, isBlank c = false ∧ c ≠ '#') → (∃ c ∈ ds, c ≠ '0' ∧ c ≠ '1') →
    parseLine ds = .malformed) ∧
  (∀ ds : List Char, 8 < ds.length → (∀ c ∈ ds, c = '0' ∨ c = '1') → parseLine ds = .malformed) ∧
  (∀ l comment : List Char, '#' ∉ l → parseLine l = .malformed → parseLine (l ++ '#' :: comment) = .malformed) ∧
  (∀ (text : List Char) (img : List Byte) (s : State), s.run = .idle → parseImage text = some img →
    256 < img.length →
      (∃ t, hostLoad (some text) s = .failed .imageTooLarge t) ∧
      (loadFrom 0 img s).2 = some (.writeOutOfRange 256#9)) ∧
  (∀ (file : Option (List Char)) (budget : Nat) (s : State) (r : Fault),
    (session file budget s).outcome = some (.loadFailed r) →
      (session file budget s).final.status = ⟨0#2, 0#3, 0#9, 0#9⟩ ∧
      (session file budget s).final.pc = 0#9 ∧ (session file budget s).final.out = [] ∧
      (∀ j, (session file budget s).final.reg j = 0#8))

/-- The program file's lines (30_encoding.md, section 6). What a text is read as is settled line by line: how it splits
into lines, what each line holds, and what a byte line and a skipped line in front of any other lines add to the image.
That a line ends at a line feed or at the end of the text, and that blanks may stand around a literal, is the model's
choice (log entry 6). -/
def Obligations.ProgramFileLines : Prop :=
  (∀ img : List Byte, parseImage (spellImage img) = some img) ∧
  (∀ ds comment : List Char, 1 ≤ ds.length → ds.length ≤ 8 → (∀ c ∈ ds, c = '0' ∨ c = '1') →
    parseLine ds = .byte (BitVec.ofNat 8 (binaryValue ds)) ∧
    parseLine (ds ++ '#' :: comment) = parseLine ds ∧
    (ds.length < 8 → parseLine ('0' :: ds) = parseLine ds)) ∧
  (∀ l comment : List Char, '#' ∉ l → parseLine (l ++ '#' :: comment) = parseLine l) ∧
  (∀ b ds b' : List Char, (∀ c ∈ b, isBlank c = true) → (∀ c ∈ b', isBlank c = true) →
    (∀ c ∈ ds, c = '0' ∨ c = '1') → parseLine (b ++ ds ++ b') = parseLine ds) ∧
  parseLine [] = .skip ∧ (∀ comment : List Char, parseLine ('#' :: comment) = .skip) ∧
  (∀ text : List Char, parseImage text = parseLines (splitLines text)) ∧
  (∀ l rest : List Char, '\n' ∉ l →
    splitLines l = [l] ∧ splitLines (l ++ '\n' :: rest) = l :: splitLines rest) ∧
  parseLines [] = some [] ∧
  (∀ (l : List Char) (ls : List (List Char)), parseLine l = .skip → parseLines (l :: ls) = parseLines ls) ∧
  (∀ (l : List Char) (v : Byte) (ls : List (List Char)), parseLine l = .byte v →
    parseLines (l :: ls) = (parseLines ls).map (v :: ·)) ∧
  (∀ (text : List Char) (img : List Byte), parseImage text = some img → img.length ≤ 256 →
    ∃ t, hostLoad (some text) State.reset = .loaded t ∧
      ∀ (n : Nat) (h : n < img.length), t.memAt n = img[n])

/-- 60_exceptions.md R117: each event is printed as its shortest unsigned decimal text and a line feed, in order. -/
def Obligations.EventsArePrintedInDecimal : Prop :=
  printed [] = [] ∧
  (∀ (out : List Byte) (v : Byte), printed (out ++ [v]) = printed out ++ decimal v ++ ['\n']) ∧
  (∀ v : Byte, (decimal v).all Char.isDigit = true ∧
    (decimal v).foldl (fun n c => 10 * n + (c.toNat - 48)) 0 = v.toNat ∧
    decimal v ≠ [] ∧ ((decimal v).head? = some '0' → decimal v = ['0']))

/-- 60_exceptions.md R118: every session has exactly one outcome, as the table says, and distinct outcomes are
reported by distinct exit statuses and messages, whatever values the host chose for them (log entry 8). -/
def Obligations.EveryRunIsClassified : Prop :=
  (∀ (file : Option (List Char)) (budget : Nat) (s : State), ∃ o, (session file budget s).outcome = some o) ∧
  (∀ s : State, (classify s = some .halted ↔ s.run = .halted) ∧
    (∀ f, classify s = some (.fault f) ↔ s.run = .faulted ∧ s.faultCauseCode = f.code) ∧
    (classify s = some .budgetExceeded ↔ s.run = .running)) ∧
  (∀ (file : Option (List Char)) (budget : Nat) (s : State) (r : Fault),
    (session file budget s).outcome = some (.loadFailed r) ↔ ∃ t, hostLoad file State.reset = .failed r t) ∧
  (∀ (c : HostReporting) (o o' : RunOutcome), o ≠ o' →
    c.exitCode o ≠ c.exitCode o' ∧ c.message o ≠ c.message o')

/-- A host stop leaves the core as its steps left it, writes no fault record, and is reported as BudgetExceeded; a
budget of 129 steps or more never stops a run (60_exceptions.md, section 5). -/
def Obligations.HostStopChangesNothing : Prop :=
  ∀ (s : State) (budget : Nat),
    Sys2Proof.core.run budget s = .next (hostRun budget s) ∧
    ((hostRun budget s).run = .running →
      (hostRun budget s).fault = s.fault ∧ classify (hostRun budget s) = some .budgetExceeded) ∧
    (129 ≤ budget → (hostRun budget s).run ≠ .running)

/-- The codes of the status interface and what the debug interface answers (10_state.md R23, R25, R35, R36). -/
def Obligations.StatusAndDebugReads : Prop :=
  (RunState.code .idle = 0#2 ∧ RunState.code .running = 1#2 ∧ RunState.code .halted = 2#2 ∧
    RunState.code .faulted = 3#2) ∧
  (CoreFault.code .unrecognizedOpcode = 1#3 ∧ CoreFault.code .outOfRangeAddress = 2#3 ∧
    CoreFault.code .outOfRangeRegister = 3#3 ∧ CoreFault.code .unsupportedAluOperation = 4#3) ∧
  (∀ s : State, s.status.run = s.run.code ∧ s.status.faultPc = s.fault.pc ∧
    s.status.faultValue = s.fault.value ∧
    (s.fault.cause = none → s.status.faultCause = 0#3) ∧
    (∀ f, s.fault.cause = some f → s.status.faultCause = f.code)) ∧
  (∀ s : State, s.debugRead .pc = s.pc ∧ (∀ i, (s.debugRead (.reg i)).toNat = (s.reg i).toNat) ∧
    (∀ a : Byte, (s.debugRead (.mem a)).toNat = (s.memAt a.toNat).toNat))

/-- 70_reset_and_hazards.md R128: what a session gives depends on the image that is loaded, and not on what the core did
before it. -/
def Obligations.SessionsDoNotInfluenceEachOther : Prop :=
  (∀ (file : Option (List Char)) (budget : Nat) (s s' : State), session file budget s = session file budget s') ∧
  (∀ (text text' : List Char) (img : List Byte) (budget : Nat) (s s' : State),
    parseImage text = some img → parseImage text' = some img →
    session (some text) budget s = session (some text') budget s')
end

