-- ==== Sys2Proof/Laws/State.lean ====
section
/-! SUPPORT. One lemma for each field of State under each update, and what a register reads after each. -/

namespace Sys2Proof.Machine

variable (s : State)

/-! ### setReg -/

@[simp] theorem State.setReg_x (i : Fin 8) (v : Byte) : (s.setReg i v).x = s.x.set i v := rfl
@[simp] theorem State.setReg_pc (i : Fin 8) (v : Byte) : (s.setReg i v).pc = s.pc := rfl
@[simp] theorem State.setReg_run (i : Fin 8) (v : Byte) : (s.setReg i v).run = s.run := rfl
@[simp] theorem State.setReg_fault (i : Fin 8) (v : Byte) : (s.setReg i v).fault = s.fault := rfl
@[simp] theorem State.setReg_mem (i : Fin 8) (v : Byte) : (s.setReg i v).mem = s.mem := rfl
@[simp] theorem State.setReg_out (i : Fin 8) (v : Byte) : (s.setReg i v).out = s.out := rfl

/-! ### advance -/

@[simp] theorem State.advance_x (n : Addr) : (s.advance n).x = s.x := rfl
@[simp] theorem State.advance_pc (n : Addr) : (s.advance n).pc = s.pc + n := rfl
@[simp] theorem State.advance_run (n : Addr) : (s.advance n).run = s.run := rfl
@[simp] theorem State.advance_fault (n : Addr) : (s.advance n).fault = s.fault := rfl
@[simp] theorem State.advance_mem (n : Addr) : (s.advance n).mem = s.mem := rfl
@[simp] theorem State.advance_out (n : Addr) : (s.advance n).out = s.out := rfl

/-! ### emit -/

@[simp] theorem State.emit_x (v : Byte) : (s.emit v).x = s.x := rfl
@[simp] theorem State.emit_pc (v : Byte) : (s.emit v).pc = s.pc := rfl
@[simp] theorem State.emit_run (v : Byte) : (s.emit v).run = s.run := rfl
@[simp] theorem State.emit_fault (v : Byte) : (s.emit v).fault = s.fault := rfl
@[simp] theorem State.emit_mem (v : Byte) : (s.emit v).mem = s.mem := rfl
@[simp] theorem State.emit_out (v : Byte) : (s.emit v).out = s.out ++ [v] := rfl

/-! ### halt -/

@[simp] theorem State.halt_x : (s.halt).x = s.x := rfl
@[simp] theorem State.halt_pc : (s.halt).pc = s.pc := rfl
@[simp] theorem State.halt_run : (s.halt).run = .halted := rfl
@[simp] theorem State.halt_fault : (s.halt).fault = s.fault := rfl
@[simp] theorem State.halt_mem : (s.halt).mem = s.mem := rfl
@[simp] theorem State.halt_out : (s.halt).out = s.out := rfl

/-! ### raise -/

@[simp] theorem State.raise_x (e : Raised) : (s.raise e).x = s.x := rfl
@[simp] theorem State.raise_pc (e : Raised) : (s.raise e).pc = s.pc := rfl
@[simp] theorem State.raise_run (e : Raised) : (s.raise e).run = .faulted := rfl
@[simp] theorem State.raise_fault (e : Raised) : (s.raise e).fault = ⟨some e.fault, s.pc, e.value⟩ := rfl
@[simp] theorem State.raise_mem (e : Raised) : (s.raise e).mem = s.mem := rfl
@[simp] theorem State.raise_out (e : Raised) : (s.raise e).out = s.out := rfl

/-! ### setMem -/

@[simp] theorem State.setMem_x (a : Nat) (v : Byte) : (s.setMem a v).x = s.x := rfl
@[simp] theorem State.setMem_pc (a : Nat) (v : Byte) : (s.setMem a v).pc = s.pc := rfl
@[simp] theorem State.setMem_run (a : Nat) (v : Byte) : (s.setMem a v).run = s.run := rfl
@[simp] theorem State.setMem_fault (a : Nat) (v : Byte) : (s.setMem a v).fault = s.fault := rfl
@[simp] theorem State.setMem_mem (a : Nat) (v : Byte) : (s.setMem a v).mem = Memory.write s.mem a v := rfl
@[simp] theorem State.setMem_out (a : Nat) (v : Byte) : (s.setMem a v).out = s.out := rfl

/-! ### withBytesAtPc -/

@[simp] theorem State.withBytesAtPc_x (bs : List Byte) : (s.withBytesAtPc bs).x = s.x := rfl
@[simp] theorem State.withBytesAtPc_pc (bs : List Byte) : (s.withBytesAtPc bs).pc = s.pc := rfl
@[simp] theorem State.withBytesAtPc_run (bs : List Byte) : (s.withBytesAtPc bs).run = .running := rfl
@[simp] theorem State.withBytesAtPc_fault (bs : List Byte) : (s.withBytesAtPc bs).fault = s.fault := rfl
@[simp] theorem State.withBytesAtPc_mem (bs : List Byte) : (s.withBytesAtPc bs).mem = Memory.place s.mem s.pc.toNat bs := rfl
@[simp] theorem State.withBytesAtPc_out (bs : List Byte) : (s.withBytesAtPc bs).out = s.out := rfl

/-! ### afterMalformed -/

@[simp] theorem State.afterMalformed_x (text : List Char) : (s.afterMalformed text).x = s.x := by simp only [State.afterMalformed]
@[simp] theorem State.afterMalformed_pc (text : List Char) : (s.afterMalformed text).pc = s.pc := by simp only [State.afterMalformed]
@[simp] theorem State.afterMalformed_run (text : List Char) : (s.afterMalformed text).run = s.run := by simp only [State.afterMalformed]
@[simp] theorem State.afterMalformed_fault (text : List Char) : (s.afterMalformed text).fault = s.fault := by simp only [State.afterMalformed]
@[simp] theorem State.afterMalformed_mem (text : List Char) : (s.afterMalformed text).mem = Memory.afterMalformed text := by simp only [State.afterMalformed]
@[simp] theorem State.afterMalformed_out (text : List Char) : (s.afterMalformed text).out = s.out := by simp only [State.afterMalformed]

/-! ### start -/

@[simp] theorem State.start_x : s.start.x = s.x := by unfold State.start; split <;> rfl
@[simp] theorem State.start_pc : s.start.pc = s.pc := by unfold State.start; split <;> rfl
@[simp] theorem State.start_fault : s.start.fault = s.fault := by unfold State.start; split <;> rfl
@[simp] theorem State.start_mem : s.start.mem = s.mem := by unfold State.start; split <;> rfl
@[simp] theorem State.start_out : s.start.out = s.out := by unfold State.start; split <;> rfl

theorem State.start_idle (h : s.run = .idle) : s.start = { s with run := .running } := by
  simp [State.start, h]

theorem State.start_of_ne_idle (h : s.run ≠ .idle) : s.start = s := by
  unfold State.start; split <;> simp_all

/-! ### Registers and memory cells as they read -/

theorem State.reg_setReg (i j : Fin 8) (v : Byte) :
    (s.setReg i v).reg j = if i = j then v else s.reg j := by
  simp [State.reg, Vector.getElem_set, Fin.ext_iff]

@[simp] theorem State.reg_setReg_self (i : Fin 8) (v : Byte) : (s.setReg i v).reg i = v := by
  simp [State.reg_setReg]

theorem State.reg_setReg_ne (i j : Fin 8) (v : Byte) (h : j ≠ i) : (s.setReg i v).reg j = s.reg j := by
  simp [State.reg_setReg, h.symm]

/-- A register reads the same in two states whose register files are equal. -/
theorem State.reg_congr {s t : State} (h : t.x = s.x) (i : Fin 8) : t.reg i = s.reg i := by
  simp [State.reg, h]

@[simp] theorem State.setReg_memAt (i : Fin 8) (v : Byte) (k : Nat) : (s.setReg i v).memAt k = s.memAt k := rfl
@[simp] theorem State.advance_reg (n : Addr) (j : Fin 8) : (s.advance n).reg j = s.reg j := rfl
@[simp] theorem State.advance_memAt (n : Addr) (k : Nat) : (s.advance n).memAt k = s.memAt k := rfl
@[simp] theorem State.emit_reg (v : Byte) (j : Fin 8) : (s.emit v).reg j = s.reg j := rfl
@[simp] theorem State.emit_memAt (v : Byte) (k : Nat) : (s.emit v).memAt k = s.memAt k := rfl
@[simp] theorem State.halt_reg (j : Fin 8) : (s.halt).reg j = s.reg j := rfl
@[simp] theorem State.halt_memAt (k : Nat) : (s.halt).memAt k = s.memAt k := rfl
@[simp] theorem State.raise_reg (e : Raised) (j : Fin 8) : (s.raise e).reg j = s.reg j := rfl
@[simp] theorem State.raise_memAt (e : Raised) (k : Nat) : (s.raise e).memAt k = s.memAt k := rfl
@[simp] theorem State.setMem_reg (a : Nat) (v : Byte) (j : Fin 8) : (s.setMem a v).reg j = s.reg j := rfl
@[simp] theorem State.withBytesAtPc_reg (bs : List Byte) (j : Fin 8) : (s.withBytesAtPc bs).reg j = s.reg j := rfl
@[simp] theorem State.afterMalformed_reg (text : List Char) (j : Fin 8) : (s.afterMalformed text).reg j = s.reg j := by
  simp only [State.reg, State.afterMalformed_x]

/-- A cell reads the same in two states whose memories are equal. -/
theorem State.memAt_congr {s t : State} (h : t.mem = s.mem) (k : Nat) : t.memAt k = s.memAt k := by
  simp [State.memAt, h]

end Sys2Proof.Machine
end

