-- ==== Sys2Proof/Laws/Memory.lean ====
section
/-! SUPPORT. Memory: a write is read back and leaves every other cell alone, and every operation keeps the canonical form. -/

namespace Sys2Proof.Machine

/-! ### Reading after writing -/

theorem Memory.wfFrom_mono {lo lo' : Nat} (h : lo' ≤ lo) :
    ∀ {m : Memory}, Memory.wfFrom lo m = true → Memory.wfFrom lo' m = true
  | [], _ => rfl
  | (k, v) :: m, hm => by
    simp only [Memory.wfFrom, Bool.and_eq_true, decide_eq_true_eq] at hm ⊢
    exact ⟨⟨⟨h.trans hm.1.1.1, hm.1.1.2⟩, hm.1.2⟩, hm.2⟩

/-- A cell below every listed address reads as an unlisted one. -/
theorem Memory.read_of_lt {a : Nat} : ∀ {lo : Nat} {m : Memory}, a < lo → Memory.wfFrom lo m = true →
    Memory.read m a = Memory.unlisted
  | _, [], _, _ => rfl
  | lo, (k, v) :: m, ha, hm => by
    simp only [Memory.wfFrom, Bool.and_eq_true, decide_eq_true_eq] at hm
    have hk : k ≠ a := by omega
    simp only [Memory.read, if_neg hk]
    exact Memory.read_of_lt (by omega) hm.2

theorem Memory.read_cons_same (a : Nat) (v : Byte) {m : Memory} (h : Memory.read m a = Memory.unlisted) :
    Memory.read (Memory.cons a v m) a = v := by
  unfold Memory.cons; split <;> simp_all [Memory.read]

theorem Memory.read_cons_other {a b : Nat} (v : Byte) (m : Memory) (h : a ≠ b) :
    Memory.read (Memory.cons a v m) b = Memory.read m b := by
  unfold Memory.cons; split <;> simp_all [Memory.read]

theorem Memory.read_write_same (a : Nat) (v : Byte) : ∀ {lo : Nat} {m : Memory},
    Memory.wfFrom lo m = true → Memory.read (Memory.write m a v) a = v
  | _, [], _ => Memory.read_cons_same a v rfl
  | lo, (k, w) :: m, hm => by
    simp only [Memory.wfFrom, Bool.and_eq_true, decide_eq_true_eq] at hm
    simp only [Memory.write]
    split_ifs with h1 h2
    · refine Memory.read_cons_same a v ?_
      have hk : k ≠ a := by omega
      simp only [Memory.read, if_neg hk]
      exact Memory.read_of_lt (by omega) hm.2
    · exact Memory.read_cons_same a v (Memory.read_of_lt (by omega) hm.2)
    · have hk : k ≠ a := fun h => h2 h.symm
      simp only [Memory.read, if_neg hk]
      exact Memory.read_write_same a v hm.2

theorem Memory.read_write_other {a b : Nat} (v : Byte) (h : a ≠ b) : ∀ m : Memory,
    Memory.read (Memory.write m a v) b = Memory.read m b
  | [] => Memory.read_cons_other v [] h
  | (k, w) :: m => by
    simp only [Memory.write]
    split_ifs with h1 h2
    · exact Memory.read_cons_other v _ h
    · have hk : k ≠ b := fun hk => h (h2.trans hk)
      rw [Memory.read_cons_other v _ h]
      simp only [Memory.read, if_neg hk]
    · simp only [Memory.read, Memory.read_write_other v h m]

/-! ### The canonical form -/

theorem Memory.wfFrom_cons {lo a : Nat} (v : Byte) {m : Memory} (hlo : lo ≤ a) (ha : a < Config.memSize)
    (hm : Memory.wfFrom (a + 1) m = true) : Memory.wfFrom lo (Memory.cons a v m) = true := by
  unfold Memory.cons
  split_ifs with hv
  · exact Memory.wfFrom_mono (by omega) hm
  · simp [Memory.wfFrom, hlo, ha, hv, hm]

theorem Memory.wfFrom_write {a : Nat} (v : Byte) (ha : a < Config.memSize) : ∀ {lo : Nat} {m : Memory},
    lo ≤ a → Memory.wfFrom lo m = true → Memory.wfFrom lo (Memory.write m a v) = true
  | _, [], hlo, _ => Memory.wfFrom_cons v hlo ha rfl
  | lo, (k, w) :: m, hlo, hm => by
    have hm' := hm
    simp only [Memory.wfFrom, Bool.and_eq_true, decide_eq_true_eq] at hm
    simp only [Memory.write]
    split_ifs with h1 h2
    · refine Memory.wfFrom_cons v hlo ha ?_
      simp only [Memory.wfFrom, Bool.and_eq_true, decide_eq_true_eq]
      exact ⟨⟨⟨h1, hm.1.1.2⟩, hm.1.2⟩, hm.2⟩
    · exact Memory.wfFrom_cons v hlo ha (h2 ▸ hm.2)
    · simp only [Memory.wfFrom, Bool.and_eq_true, decide_eq_true_eq]
      exact ⟨hm.1, Memory.wfFrom_write v ha (by omega) hm.2⟩

/-- A write to a cell that exists keeps the canonical form. -/
theorem Memory.wf_write {m : Memory} {a : Nat} (v : Byte) (ha : a < Config.memSize)
    (hm : Memory.wf m = true) : Memory.wf (Memory.write m a v) = true :=
  Memory.wfFrom_write v ha (Nat.zero_le a) hm

/-- Placing bytes keeps the canonical form. -/
theorem Memory.wf_place : ∀ (bs : List Byte) (a : Nat) {m : Memory}, Memory.wf m = true →
    Memory.wf (Memory.place m a bs) = true
  | [], _, _, hm => hm
  | b :: bs, a, m, hm => by
    refine Memory.wf_place bs (a + 1) ?_
    split_ifs with ha
    · exact Memory.wf_write b ha hm
    · exact hm

theorem Memory.wf_nil : Memory.wf [] = true := rfl

/-- What a cell reads as after bytes were placed from `a` on. -/
theorem Memory.read_place : ∀ (bs : List Byte) (a : Nat) {m : Memory}, Memory.wf m = true → ∀ b : Nat,
    Memory.read (Memory.place m a bs) b =
      if b < Config.memSize then (if a ≤ b then bs[b - a]?.getD (Memory.read m b) else Memory.read m b)
      else Memory.read m b
  | [], a, m, _, b => by simp [Memory.place]
  | v :: bs, a, m, hm, b => by
    have hm' : Memory.wf (if a < Config.memSize then Memory.write m a v else m) = true := by
      split_ifs with ha
      · exact Memory.wf_write v ha hm
      · exact hm
    rw [Memory.place, Memory.read_place bs (a + 1) hm' b]
    by_cases hb : b < Config.memSize
    · rcases Nat.lt_trichotomy a b with h | h | h
      · obtain ⟨d, rfl⟩ : ∃ d, b = a + 1 + d := ⟨b - (a + 1), by omega⟩
        have h1 : a + 1 + d - (a + 1) = d := by omega
        have h2 : a + 1 + d - a = d + 1 := by omega
        have ha : a < Config.memSize := by omega
        simp only [if_pos hb, if_pos ha, h1, h2, if_pos (show a + 1 ≤ a + 1 + d by omega),
          if_pos (show a ≤ a + 1 + d by omega), List.getElem?_cons_succ,
          Memory.read_write_other v (show a ≠ a + 1 + d by omega) m]
      · subst h
        simp only [if_pos hb, if_neg (show ¬ a + 1 ≤ a by omega), if_pos (le_refl a), Nat.sub_self,
          List.getElem?_cons_zero, Option.getD_some]
        exact Memory.read_write_same a v hm
      · simp only [if_pos hb, if_neg (show ¬ a + 1 ≤ b by omega), if_neg (show ¬ a ≤ b by omega)]
        split_ifs with ha
        · exact Memory.read_write_other v (by omega) m
        · rfl
    · simp only [if_neg hb]
      split_ifs with ha
      · exact Memory.read_write_other v (by omega) m
      · rfl

/-- A canonical memory lists no address past the last cell. -/
theorem Memory.read_of_ge {b : Nat} (hb : Config.memSize ≤ b) : ∀ {lo : Nat} {m : Memory},
    Memory.wfFrom lo m = true → Memory.read m b = Memory.unlisted
  | _, [], _ => rfl
  | lo, (k, v) :: m, hm => by
    simp only [Memory.wfFrom, Bool.and_eq_true, decide_eq_true_eq] at hm
    have hk : k ≠ b := by omega
    simp only [Memory.read, if_neg hk]
    exact Memory.read_of_ge hb hm.2

/-! ### Equal memories are equal data -/

theorem Memory.ext_from : ∀ {lo : Nat} {m m' : Memory}, Memory.wfFrom lo m = true → Memory.wfFrom lo m' = true →
    (∀ a, Memory.read m a = Memory.read m' a) → m = m'
  | _, [], [], _, _, _ => rfl
  | _, [], (k, v) :: m', _, hm', h => by
    simp only [Memory.wfFrom, Bool.and_eq_true, decide_eq_true_eq] at hm'
    have := h k
    simp only [Memory.read, if_pos] at this
    exact absurd this.symm hm'.1.2
  | _, (k, v) :: m, [], hm, _, h => by
    simp only [Memory.wfFrom, Bool.and_eq_true, decide_eq_true_eq] at hm
    have := h k
    simp only [Memory.read, if_pos] at this
    exact absurd this hm.1.2
  | lo, (k, v) :: m, (k', v') :: m', hm, hm', h => by
    simp only [Memory.wfFrom, Bool.and_eq_true, decide_eq_true_eq] at hm hm'
    have hk : k = k' := by
      rcases Nat.lt_trichotomy k k' with hlt | heq | hgt
      · have h1 := h k
        have hne : k' ≠ k := by omega
        simp only [Memory.read, if_pos, if_neg hne] at h1
        rw [Memory.read_of_lt (by omega) hm'.2] at h1
        exact absurd h1 hm.1.2
      · exact heq
      · have h1 := h k'
        have hne : k ≠ k' := by omega
        simp only [Memory.read, if_pos, if_neg hne] at h1
        rw [Memory.read_of_lt (by omega) hm.2] at h1
        exact absurd h1.symm hm'.1.2
    subst hk
    have hv : v = v' := by
      have h1 := h k
      simpa only [Memory.read, if_pos] using h1
    subst hv
    have hrest : m = m' := by
      refine Memory.ext_from hm.2 hm'.2 (fun a => ?_)
      by_cases ha : k = a
      · subst ha
        rw [Memory.read_of_lt (by omega) hm.2, Memory.read_of_lt (by omega) hm'.2]
      · have h1 := h a
        simpa only [Memory.read, if_neg ha] using h1
    rw [hrest]

/-- Two canonical memories whose cells read alike are equal. -/
theorem Memory.ext_of_wf {m m' : Memory} (hm : Memory.wf m = true) (hm' : Memory.wf m' = true)
    (h : ∀ a, Memory.read m a = Memory.read m' a) : m = m' :=
  Memory.ext_from hm hm' h

/-- The memory after reset is canonical. -/
theorem State.reset_mem_wf : Memory.wf State.reset.mem = true := rfl

/-- The memory after a load with a malformed line is canonical, whatever the free values are. -/
theorem Memory.wf_afterMalformed (text : List Char) : Memory.wf (Memory.afterMalformed text) = true :=
  Memory.wf_place _ 0 Memory.wf_nil

/-! ### The state's cells -/

theorem State.memAt_setMem_same {s : State} (h : Memory.wf s.mem = true) (a : Nat) (v : Byte) :
    (s.setMem a v).memAt a = v := Memory.read_write_same a v h

theorem State.memAt_setMem_other (s : State) {a b : Nat} (v : Byte) (h : a ≠ b) :
    (s.setMem a v).memAt b = s.memAt b := Memory.read_write_other v h s.mem

end Sys2Proof.Machine
end

