-- ==== Sys2Proof/Laws/Ops.lean ====
section
/-! SUPPORT. One lemma for each shared operation that says everything it can do, and the results of the handlers on operands that are there. -/

namespace Sys2Proof.Machine

variable (s : State)

/-! ### Ending a step -/

@[simp] theorem State.settle_ok (t : State) : s.settle (.ok t) = .next t := rfl
@[simp] theorem State.settle_error (e : Raised) : s.settle (.error e) = .next (s.raise e) := rfl
@[simp] theorem State.settle_pure (t : State) : s.settle (pure t) = .next t := rfl

/-- A step that settles always answers a next state: the handler's, or the raised one. -/
theorem State.settle_cases (r : Except Raised State) :
    (∃ t, r = .ok t ∧ s.settle r = .next t) ∨ (∃ e, r = .error e ∧ s.settle r = .next (s.raise e)) := by
  cases r with
  | ok t => exact .inl ⟨t, rfl, rfl⟩
  | error e => exact .inr ⟨e, rfl, rfl⟩

@[simp] theorem ok_bind {α β : Type} (a : α) (f : α → Except Raised β) : (Except.ok a >>= f) = f a := rfl
@[simp] theorem error_bind {α β : Type} (e : Raised) (f : α → Except Raised β) :
    ((Except.error e : Except Raised α) >>= f) = .error e := rfl

/-! ### Taking operands -/

@[simp] theorem need_some (b : Byte) (a : Addr) : need (some b) a = .ok b := rfl
@[simp] theorem need_none (a : Addr) : need none a = .error ⟨.outOfRangeAddress, a⟩ := rfl

theorem regidx_of_lt {v : Byte} (h : v.toNat < 8) : regidx v = .ok ⟨v.toNat, h⟩ := by
  simp [regidx, h]

theorem regidx_of_ge {v : Byte} (h : 8 ≤ v.toNat) :
    regidx v = .error ⟨.outOfRangeRegister, v.setWidth 9⟩ := by
  simp [regidx, Nat.not_lt.mpr h]

/-- The byte that names a register is taken for that register. -/
@[simp] theorem regidx_ofNat (i : Fin 8) : regidx (BitVec.ofNat 8 i.val) = .ok i := by
  have h : (BitVec.ofNat 8 i.val).toNat = i.val := by
    simp only [BitVec.toNat_ofNat]; omega
  simp [regidx, h]

/-! ### The ALU -/

theorem alu_add (a b : Byte) : alu aluAdd a b = some (BitVec.ofNat 8 (a.toNat + b.toNat)) := by
  simp [alu]

theorem alu_mul (a b : Byte) : alu aluMul a b = some (BitVec.ofNat 8 (a.toNat * b.toNat)) := by
  simp [alu, aluAdd, aluMul]

@[simp] theorem aluApply_mul (a b : Byte) :
    aluApply aluMul a b = .ok (BitVec.ofNat 8 (a.toNat * b.toNat)) := by
  simp [aluApply, alu_mul]

/-! ### Reading memory -/

theorem State.memRead_of_lt {a : Addr} (h : a.toNat < 256) : s.memRead a = .ok (s.memAt a.toNat) := by
  simp [State.memRead, Config.memSize, h]

theorem State.memRead_of_ge {a : Addr} (h : 256 ≤ a.toNat) :
    s.memRead a = .error ⟨.outOfRangeAddress, a⟩ := by
  simp [State.memRead, Config.memSize, Nat.not_lt.mpr h]

theorem State.opFetch_of_lt {a : Addr} (h : a.toNat < 256) : s.opFetch a = some (s.memAt a.toNat) := by
  simp [State.opFetch, Config.memSize, h]

theorem State.opFetch_of_ge {a : Addr} (h : 256 ≤ a.toNat) : s.opFetch a = none := by
  simp [State.opFetch, Config.memSize, Nat.not_lt.mpr h]

/-- An address after `pc`, while `pc` is one that can be fetched from: no wrap. -/
theorem Addr.toNat_add_small {p : Addr} {n : Nat} (hp : p.toNat ≤ 256) (hn : n ≤ 3) :
    (p + BitVec.ofNat 9 n).toNat = p.toNat + n := by
  simp only [BitVec.toNat_add, BitVec.toNat_ofNat]; omega

/-! ### The table -/

/-- Everything that the table can answer. -/
theorem lookup_cases (op : Byte) (a b : Operand) :
    (op = opLdi ∧ lookup op a b = some (.ldi a b)) ∨ (op = opPrn ∧ lookup op a b = some (.prn a)) ∨
    (op = opMul ∧ lookup op a b = some (.mul a b)) ∨ (op = opHlt ∧ lookup op a b = some .hlt) ∨
    ((op ≠ opLdi ∧ op ≠ opPrn ∧ op ≠ opMul ∧ op ≠ opHlt) ∧ lookup op a b = none) := by
  unfold lookup
  split_ifs with h1 h2 h3 h4
  · exact .inl ⟨h1, rfl⟩
  · exact .inr (.inl ⟨h2, rfl⟩)
  · exact .inr (.inr (.inl ⟨h3, rfl⟩))
  · exact .inr (.inr (.inr (.inl ⟨h4, rfl⟩)))
  · exact .inr (.inr (.inr (.inr ⟨⟨h1, h2, h3, h4⟩, rfl⟩)))

@[simp] theorem lookup_ldi (a b : Operand) : lookup opLdi a b = some (.ldi a b) := rfl
@[simp] theorem lookup_prn (a b : Operand) : lookup opPrn a b = some (.prn a) := rfl
@[simp] theorem lookup_mul (a b : Operand) : lookup opMul a b = some (.mul a b) := rfl
@[simp] theorem lookup_hlt (a b : Operand) : lookup opHlt a b = some .hlt := rfl

/-- What the step makes of an opcode byte. -/
theorem recognize_of_some {op : Byte} {a b : Operand} {i : Instr} (h : lookup op a b = some i) :
    recognize op a b = .ok i := by simp [recognize, h]

theorem recognize_of_none {op : Byte} {a b : Operand} (h : lookup op a b = none) :
    recognize op a b = .error ⟨.unrecognizedOpcode, op.setWidth 9⟩ := by simp [recognize, h]

/-! ### The handlers on operands that pass every check -/

theorem execLdi_ok {a v : Byte} (h : a.toNat < 8) :
    execLdi (some a) (some v) s = .next ((s.setReg ⟨a.toNat, h⟩ v).advance 3#9) := by
  simp [execLdi, regidx_of_lt h]

theorem execPrn_ok {a : Byte} (h : a.toNat < 8) :
    execPrn (some a) s = .next ((s.emit (s.reg ⟨a.toNat, h⟩)).advance 2#9) := by
  simp [execPrn, regidx_of_lt h]

theorem execMul_ok {a b : Byte} (ha : a.toNat < 8) (hb : b.toNat < 8) :
    execMul (some a) (some b) s =
      .next ((s.setReg ⟨a.toNat, ha⟩ (BitVec.ofNat 8
        ((s.reg ⟨a.toNat, ha⟩).toNat * (s.reg ⟨b.toNat, hb⟩).toNat))).advance 3#9) := by
  simp [execMul, regidx_of_lt ha, regidx_of_lt hb]

@[simp] theorem execHlt_next : execHlt s = .next s.halt := rfl

/-! ### The handlers: everything that each can do -/

/-- LDI completes, or raises an address fault or a register fault. -/
theorem execLdi_cases (ra imm : Operand) :
    (∃ i v, imm = some v ∧ ra = some (BitVec.ofNat 8 (Fin.val i)) ∧
      execLdi ra imm s = .next ((s.setReg i v).advance 3#9)) ∨
    (ra = none ∧ execLdi ra imm s = .next (s.raise ⟨.outOfRangeAddress, s.pc + 1#9⟩)) ∨
    (∃ a, ra = some a ∧ imm = none ∧ execLdi ra imm s = .next (s.raise ⟨.outOfRangeAddress, s.pc + 2#9⟩)) ∨
    (∃ a v, ra = some a ∧ imm = some v ∧ 8 ≤ a.toNat ∧
      execLdi ra imm s = .next (s.raise ⟨.outOfRangeRegister, a.setWidth 9⟩)) := by
  cases ra with
  | none => exact .inr (.inl ⟨rfl, by simp [execLdi]⟩)
  | some a =>
    cases imm with
    | none => exact .inr (.inr (.inl ⟨a, rfl, rfl, by simp [execLdi]⟩))
    | some v =>
      by_cases h : a.toNat < 8
      · exact .inl ⟨⟨a.toNat, h⟩, v, rfl, by simp, execLdi_ok s h⟩
      · have h' : 8 ≤ a.toNat := by omega
        exact .inr (.inr (.inr ⟨a, v, rfl, rfl, h', by simp [execLdi, regidx_of_ge h']⟩))

/-- PRN completes, or raises an address fault or a register fault. -/
theorem execPrn_cases (ra : Operand) :
    (∃ i, ra = some (BitVec.ofNat 8 (Fin.val i)) ∧
      execPrn ra s = .next ((s.emit (s.reg i)).advance 2#9)) ∨
    (ra = none ∧ execPrn ra s = .next (s.raise ⟨.outOfRangeAddress, s.pc + 1#9⟩)) ∨
    (∃ a, ra = some a ∧ 8 ≤ a.toNat ∧
      execPrn ra s = .next (s.raise ⟨.outOfRangeRegister, a.setWidth 9⟩)) := by
  cases ra with
  | none => exact .inr (.inl ⟨rfl, by simp [execPrn]⟩)
  | some a =>
    by_cases h : a.toNat < 8
    · exact .inl ⟨⟨a.toNat, h⟩, by simp, execPrn_ok s h⟩
    · have h' : 8 ≤ a.toNat := by omega
      exact .inr (.inr ⟨a, rfl, h', by simp [execPrn, regidx_of_ge h']⟩)

/-- MUL completes, or raises an address fault or a register fault; never UnsupportedAluOperation. -/
theorem execMul_cases (ra rb : Operand) :
    (∃ i j, ra = some (BitVec.ofNat 8 (Fin.val i)) ∧ rb = some (BitVec.ofNat 8 (Fin.val j)) ∧
      execMul ra rb s =
        .next ((s.setReg i (BitVec.ofNat 8 ((s.reg i).toNat * (s.reg j).toNat))).advance 3#9)) ∨
    (ra = none ∧ execMul ra rb s = .next (s.raise ⟨.outOfRangeAddress, s.pc + 1#9⟩)) ∨
    (∃ a, ra = some a ∧ rb = none ∧ execMul ra rb s = .next (s.raise ⟨.outOfRangeAddress, s.pc + 2#9⟩)) ∨
    (∃ a b, ra = some a ∧ rb = some b ∧ 8 ≤ a.toNat ∧
      execMul ra rb s = .next (s.raise ⟨.outOfRangeRegister, a.setWidth 9⟩)) ∨
    (∃ a b, ra = some a ∧ rb = some b ∧ a.toNat < 8 ∧ 8 ≤ b.toNat ∧
      execMul ra rb s = .next (s.raise ⟨.outOfRangeRegister, b.setWidth 9⟩)) := by
  cases ra with
  | none => exact .inr (.inl ⟨rfl, by simp [execMul]⟩)
  | some a =>
    cases rb with
    | none => exact .inr (.inr (.inl ⟨a, rfl, rfl, by simp [execMul]⟩))
    | some b =>
      by_cases ha : a.toNat < 8
      · by_cases hb : b.toNat < 8
        · exact .inl ⟨⟨a.toNat, ha⟩, ⟨b.toNat, hb⟩, by simp, by simp, execMul_ok s ha hb⟩
        · have hb' : 8 ≤ b.toNat := by omega
          exact .inr (.inr (.inr (.inr ⟨a, b, rfl, rfl, ha, hb', by
            simp [execMul, regidx_of_lt ha, regidx_of_ge hb']⟩)))
      · have ha' : 8 ≤ a.toNat := by omega
        exact .inr (.inr (.inr (.inl ⟨a, b, rfl, rfl, ha', by simp [execMul, regidx_of_ge ha']⟩)))

end Sys2Proof.Machine
end

