-- ==== Sys2Proof/Laws/Step.lean ====
section
/-! SUPPORT. What one step can do, said once: every invariant is read from `step_cases`. -/

namespace Sys2Proof.Machine

variable (s : State)

/-! ### The fetch -/

theorem State.fetch_of_ge (h : 256 ≤ s.pc.toNat) : s.fetch = .error ⟨.outOfRangeAddress, s.pc⟩ := by
  simp [State.fetch, s.memRead_of_ge h]

/-- The fetch from an address that exists: the table's answer for the byte there and the two latches. -/
theorem State.fetch_of_lt (h : s.pc.toNat < 256) :
    s.fetch = recognize (s.memAt s.pc.toNat)
      (if s.pc.toNat + 1 < 256 then some (s.memAt (s.pc.toNat + 1)) else none)
      (if s.pc.toNat + 2 < 256 then some (s.memAt (s.pc.toNat + 2)) else none) := by
  have h1 : (s.pc + 1#9).toNat = s.pc.toNat + 1 := Addr.toNat_add_small (n := 1) (by omega) (by omega)
  have h2 : (s.pc + 2#9).toNat = s.pc.toNat + 2 := Addr.toNat_add_small (n := 2) (by omega) (by omega)
  simp [State.fetch, s.memRead_of_lt h, State.opFetch, Config.memSize, h1, h2]

/-! ### The step -/

theorem step_of_not_running (h : s.run ≠ .running) : step s = .next s := by
  unfold step State.stepWith; split <;> simp_all

theorem step_of_fetch_ok {i : Instr} (hr : s.run = .running) (hf : s.fetch = .ok i) : step s = exec i s := by
  simp [step, State.stepWith, hr, hf]

theorem step_of_fetch_error {e : Raised} (hr : s.run = .running) (hf : s.fetch = .error e) :
    step s = .next (s.raise e) := by
  simp [step, State.stepWith, hr, hf]

/-- Everything that a step of a RUNNING core can do, with what stands at `pc`. -/
inductive StepShape (s : State) : State → Prop where
  | fetchPast (h : 256 ≤ s.pc.toNat) : StepShape s (s.raise ⟨.outOfRangeAddress, s.pc⟩)
  | illegal (h : s.pc.toNat < 256) (hop : s.memAt s.pc.toNat ≠ opLdi ∧ s.memAt s.pc.toNat ≠ opPrn ∧
      s.memAt s.pc.toNat ≠ opMul ∧ s.memAt s.pc.toNat ≠ opHlt) :
      StepShape s (s.raise ⟨.unrecognizedOpcode, (s.memAt s.pc.toNat).setWidth 9⟩)
  | halt (h : s.pc.toNat < 256) (hop : s.memAt s.pc.toNat = opHlt) : StepShape s s.halt
  | operandA (h : s.pc.toNat = 255)
      (hop : s.memAt s.pc.toNat = opLdi ∨ s.memAt s.pc.toNat = opPrn ∨ s.memAt s.pc.toNat = opMul) :
      StepShape s (s.raise ⟨.outOfRangeAddress, s.pc + 1#9⟩)
  | operandB (h : s.pc.toNat = 254) (hop : s.memAt s.pc.toNat = opLdi ∨ s.memAt s.pc.toNat = opMul) :
      StepShape s (s.raise ⟨.outOfRangeAddress, s.pc + 2#9⟩)
  | indexA (h : s.pc.toNat < 255)
      (hop : s.memAt s.pc.toNat = opPrn ∨
        (s.pc.toNat < 254 ∧ (s.memAt s.pc.toNat = opLdi ∨ s.memAt s.pc.toNat = opMul)))
      (ha : 8 ≤ (s.memAt (s.pc.toNat + 1)).toNat) :
      StepShape s (s.raise ⟨.outOfRangeRegister, (s.memAt (s.pc.toNat + 1)).setWidth 9⟩)
  | indexB (h : s.pc.toNat < 254) (hop : s.memAt s.pc.toNat = opMul)
      (ha : (s.memAt (s.pc.toNat + 1)).toNat < 8) (hb : 8 ≤ (s.memAt (s.pc.toNat + 2)).toNat) :
      StepShape s (s.raise ⟨.outOfRangeRegister, (s.memAt (s.pc.toNat + 2)).setWidth 9⟩)
  | ldi (h : s.pc.toNat < 254) (hop : s.memAt s.pc.toNat = opLdi) (i : Fin 8)
      (ha : s.memAt (s.pc.toNat + 1) = BitVec.ofNat 8 i.val) :
      StepShape s ((s.setReg i (s.memAt (s.pc.toNat + 2))).advance 3#9)
  | prn (h : s.pc.toNat < 255) (hop : s.memAt s.pc.toNat = opPrn) (i : Fin 8)
      (ha : s.memAt (s.pc.toNat + 1) = BitVec.ofNat 8 i.val) :
      StepShape s ((s.emit (s.reg i)).advance 2#9)
  | mul (h : s.pc.toNat < 254) (hop : s.memAt s.pc.toNat = opMul) (i j : Fin 8)
      (ha : s.memAt (s.pc.toNat + 1) = BitVec.ofNat 8 i.val)
      (hb : s.memAt (s.pc.toNat + 2) = BitVec.ofNat 8 j.val) :
      StepShape s ((s.setReg i (BitVec.ofNat 8 ((s.reg i).toNat * (s.reg j).toNat))).advance 3#9)

/-- A step of a RUNNING core always answers a next state, of one of the shapes. -/
theorem step_cases (hr : s.run = .running) : ∃ t, step s = .next t ∧ StepShape s t := by
  by_cases hp : s.pc.toNat < 256
  swap
  · have hp' : 256 ≤ s.pc.toNat := by omega
    exact ⟨_, step_of_fetch_error s hr (s.fetch_of_ge hp'), .fetchPast hp'⟩
  have hf := s.fetch_of_lt hp
  rcases lookup_cases (s.memAt s.pc.toNat)
      (if s.pc.toNat + 1 < 256 then some (s.memAt (s.pc.toNat + 1)) else none)
      (if s.pc.toNat + 2 < 256 then some (s.memAt (s.pc.toNat + 2)) else none) with
    ⟨hop, hl⟩ | ⟨hop, hl⟩ | ⟨hop, hl⟩ | ⟨hop, hl⟩ | ⟨hop, hl⟩
  · rw [recognize_of_some hl] at hf
    rw [step_of_fetch_ok s hr hf]
    change ∃ t, execLdi _ _ s = .next t ∧ _
    rcases execLdi_cases s (if s.pc.toNat + 1 < 256 then some (s.memAt (s.pc.toNat + 1)) else none)
      (if s.pc.toNat + 2 < 256 then some (s.memAt (s.pc.toNat + 2)) else none) with
      ⟨i, v, hv, ha, he⟩ | ⟨ha, he⟩ | ⟨a, ha, hv, he⟩ | ⟨a, v, ha, hv, h8, he⟩ <;> rw [he]
    · simp only [ite_eq_iff, Option.some.injEq, reduceCtorEq, and_false, or_false] at hv ha
      obtain ⟨h2, rfl⟩ := hv
      exact ⟨_, rfl, .ldi (by omega) hop i ha.2⟩
    · simp only [ite_eq_iff, reduceCtorEq, and_false, false_or, and_true] at ha
      exact ⟨_, rfl, .operandA (by omega) (.inl hop)⟩
    · simp only [ite_eq_iff, Option.some.injEq, reduceCtorEq, and_false, or_false, false_or, and_true] at hv ha
      exact ⟨_, rfl, .operandB (by omega) (.inl hop)⟩
    · simp only [ite_eq_iff, Option.some.injEq, reduceCtorEq, and_false, or_false] at hv ha
      obtain ⟨h1, rfl⟩ := ha
      exact ⟨_, rfl, .indexA (by omega) (.inr ⟨by omega, .inl hop⟩) h8⟩
  · rw [recognize_of_some hl] at hf
    rw [step_of_fetch_ok s hr hf]
    change ∃ t, execPrn _ s = .next t ∧ _
    rcases execPrn_cases s (if s.pc.toNat + 1 < 256 then some (s.memAt (s.pc.toNat + 1)) else none) with
      ⟨i, ha, he⟩ | ⟨ha, he⟩ | ⟨a, ha, h8, he⟩ <;> rw [he]
    · simp only [ite_eq_iff, Option.some.injEq, reduceCtorEq, and_false, or_false] at ha
      exact ⟨_, rfl, .prn (by omega) hop i ha.2⟩
    · simp only [ite_eq_iff, reduceCtorEq, and_false, false_or, and_true] at ha
      exact ⟨_, rfl, .operandA (by omega) (.inr (.inl hop))⟩
    · simp only [ite_eq_iff, Option.some.injEq, reduceCtorEq, and_false, or_false] at ha
      obtain ⟨h1, rfl⟩ := ha
      exact ⟨_, rfl, .indexA (by omega) (.inl hop) h8⟩
  · rw [recognize_of_some hl] at hf
    rw [step_of_fetch_ok s hr hf]
    change ∃ t, execMul _ _ s = .next t ∧ _
    rcases execMul_cases s (if s.pc.toNat + 1 < 256 then some (s.memAt (s.pc.toNat + 1)) else none)
      (if s.pc.toNat + 2 < 256 then some (s.memAt (s.pc.toNat + 2)) else none) with
      ⟨i, j, ha, hb, he⟩ | ⟨ha, he⟩ | ⟨a, ha, hb, he⟩ | ⟨a, b, ha, hb, h8, he⟩ |
        ⟨a, b, ha, hb, h7, h8, he⟩ <;> rw [he]
    · simp only [ite_eq_iff, Option.some.injEq, reduceCtorEq, and_false, or_false] at ha hb
      exact ⟨_, rfl, .mul (by omega) hop i j ha.2 hb.2⟩
    · simp only [ite_eq_iff, reduceCtorEq, and_false, false_or, and_true] at ha
      exact ⟨_, rfl, .operandA (by omega) (.inr (.inr hop))⟩
    · simp only [ite_eq_iff, Option.some.injEq, reduceCtorEq, and_false, or_false, false_or, and_true] at ha hb
      exact ⟨_, rfl, .operandB (by omega) (.inr hop)⟩
    · simp only [ite_eq_iff, Option.some.injEq, reduceCtorEq, and_false, or_false] at ha hb
      obtain ⟨h1, rfl⟩ := ha
      exact ⟨_, rfl, .indexA (by omega) (.inr ⟨by omega, .inr hop⟩) h8⟩
    · simp only [ite_eq_iff, Option.some.injEq, reduceCtorEq, and_false, or_false] at ha hb
      obtain ⟨h1, rfl⟩ := ha
      obtain ⟨h2, rfl⟩ := hb
      exact ⟨_, rfl, .indexB (by omega) hop h7 h8⟩
  · rw [recognize_of_some hl] at hf
    rw [step_of_fetch_ok s hr hf]
    exact ⟨_, rfl, .halt hp hop⟩
  · rw [recognize_of_none hl] at hf
    exact ⟨_, step_of_fetch_error s hr hf, .illegal hp hop⟩

/-- Every step answers a next state: the core's faults are next states (60_exceptions.md R105). -/
theorem step_next : ∃ t, step s = .next t := by
  by_cases hr : s.run = .running
  · obtain ⟨t, ht, _⟩ := step_cases s hr
    exact ⟨t, ht⟩
  · exact ⟨s, step_of_not_running s hr⟩

/-- What a step of a RUNNING core that answered `t` has done. -/
theorem step_shape {t : State} (hr : s.run = .running) (h : step s = .next t) : StepShape s t := by
  obtain ⟨u, hu, hs⟩ := step_cases s hr
  rw [h] at hu
  cases hu
  exact hs

end Sys2Proof.Machine
end

