-- ==== Sys2Proof/Laws/Host.lean ====
section
/-! SUPPORT. The host's operations: what a host write, a load and a host run can do, said once each. -/

namespace Sys2Proof.Machine

variable (s : State)

theorem hostWrite_ok {a : Addr} (v : Byte) (hr : s.run = .idle) (ha : a.toNat < 256) :
    hostWrite a v s = .next (s.setMem a.toNat v) := by
  simp [hostWrite, hr, Config.memSize, ha]

theorem hostWrite_past {a : Addr} (v : Byte) (hr : s.run = .idle) (ha : 256 ≤ a.toNat) :
    hostWrite a v s = .refused (.writeOutOfRange a) := by
  simp [hostWrite, hr, Config.memSize, Nat.not_lt.mpr ha]

theorem hostWrite_not_idle (a : Addr) (v : Byte) (hr : s.run ≠ .idle) :
    hostWrite a v s = .refused .writeOutsideIdle := by
  unfold hostWrite; split <;> simp_all

/-- A host write that is taken was made in IDLE, to a cell that exists. -/
theorem hostWrite_next {a : Addr} {v : Byte} {t : State} (h : hostWrite a v s = .next t) :
    s.run = .idle ∧ a.toNat < 256 ∧ t = s.setMem a.toNat v := by
  by_cases hr : s.run = .idle
  · by_cases ha : a.toNat < 256
    · rw [hostWrite_ok s v hr ha] at h; cases h; exact ⟨hr, ha, rfl⟩
    · rw [hostWrite_past s v hr (by omega)] at h; cases h
  · rw [hostWrite_not_idle s a v hr] at h; cases h

/-- A load that fits is the bytes placed in memory, and nothing else. -/
theorem loadFrom_fits : ∀ (vs : List Byte) (n : Nat) (s : State), s.run = .idle → n + vs.length ≤ 256 →
    loadFrom n vs s = ({ s with mem := Memory.place s.mem n vs }, none)
  | [], _, _, _, _ => rfl
  | v :: vs, n, s, hr, hn => by
    simp only [List.length_cons] at hn
    have hn' : (BitVec.ofNat 9 n).toNat = n := by simp only [BitVec.toNat_ofNat]; omega
    have hlt : n < Config.memSize := by simp only [Config.memSize]; omega
    simp only [loadFrom, hostWrite_ok s v hr (a := BitVec.ofNat 9 n) (by omega), hn', Memory.place, if_pos hlt]
    exact loadFrom_fits vs (n + 1) (s.setMem n v) hr (by omega)

/-- A load that does not fit writes what fits and has its next write refused. -/
theorem loadFrom_too_long : ∀ (vs : List Byte) (n : Nat) (s : State), s.run = .idle → n ≤ 256 →
    256 < n + vs.length →
    loadFrom n vs s = ({ s with mem := Memory.place s.mem n vs }, some (.writeOutOfRange 256#9))
  | [], _, _, _, hn, h => by simp at h; omega
  | v :: vs, n, s, hr, hn, h => by
    simp only [List.length_cons] at h
    have hn' : (BitVec.ofNat 9 n).toNat = n := by simp only [BitVec.toNat_ofNat]; omega
    by_cases hlt : n < 256
    · have hlt' : n < Config.memSize := hlt
      simp only [loadFrom, hostWrite_ok s v hr (a := BitVec.ofNat 9 n) (by omega), hn', Memory.place, if_pos hlt']
      exact loadFrom_too_long vs (n + 1) (s.setMem n v) hr (by omega) (by omega)
    · obtain rfl : n = 256 := by omega
      have hp : ∀ (bs : List Byte) (a : Nat) (m : Memory), 256 ≤ a → Memory.place m a bs = m := by
        intro bs
        induction bs with
        | nil => intros; rfl
        | cons b bs ih =>
          intro a m ha
          rw [Memory.place, if_neg (by simp only [Config.memSize]; omega), ih _ _ (by omega)]
      simp only [loadFrom, hostWrite_past s v hr (a := BitVec.ofNat 9 256) (by omega), hp _ _ _ (Nat.le_refl 256)]

/-! ### The program file: what each kind of line adds -/

theorem parseLines_skip {l : List Char} (ls : List (List Char)) (h : parseLine l = .skip) :
    parseLines (l :: ls) = parseLines ls := by simp [parseLines, h]

theorem parseLines_byte {l : List Char} {v : Byte} (ls : List (List Char)) (h : parseLine l = .byte v) :
    parseLines (l :: ls) = (parseLines ls).map (v :: ·) := by simp [parseLines, h]

theorem parseLines_malformed {l : List Char} (ls : List (List Char)) (h : parseLine l = .malformed) :
    parseLines (l :: ls) = none := by simp [parseLines, h]

/-! ### The load -/

theorem hostLoad_none (hr : s.run = .idle) : hostLoad none s = .failed .programNotFound s := by
  simp [hostLoad, hr]

theorem hostLoad_malformed {text : List Char} (hr : s.run = .idle) (h : parseImage text = none) :
    hostLoad (some text) s = .failed .malformedInstruction (s.afterMalformed text) := by
  simp [hostLoad, hr, h]

theorem hostLoad_image {text : List Char} {img : List Byte} (hr : s.run = .idle)
    (h : parseImage text = some img) : hostLoad (some text) s = loadImage img s := by
  simp [hostLoad, hr, h]

/-- The load of an image while IDLE, in both cases: the bytes that fit are placed, and only a fit is a load. -/
theorem loadImage_idle (img : List Byte) (hr : s.run = .idle) :
    loadImage img s =
      if img.length ≤ 256 then .loaded { s with mem := Memory.place s.mem 0 img }
      else .failed .imageTooLarge { s with mem := Memory.place s.mem 0 img } := by
  unfold loadImage
  split_ifs with h
  · rw [loadFrom_fits img 0 s hr (by omega)]
  · rw [loadFrom_too_long img 0 s hr (by omega) (by omega)]

/-- A core that is not RUNNING is left as it is by a host run. -/
theorem hostRun_of_not_running (h : s.run ≠ .running) : ∀ k, hostRun k s = s
  | 0 => rfl
  | k + 1 => by unfold hostRun; split <;> simp_all

theorem hostRun_succ {t : State} (k : Nat) (hr : s.run = .running) (h : step s = .next t) :
    hostRun (k + 1) s = hostRun k t := by
  simp [hostRun, hr, h]

/-- One step of a host's run whose step answered a next state. -/
theorem run_succ (M : Host.Core) (k : Nat) {s t : M.State} (h : M.step s = .next t) :
    M.run (k + 1) s = M.run k t := by
  simp only [Host.Core.run, h]

/-- The same of this machine. -/
theorem core_run_succ (k : Nat) {s t : State} (h : step s = .next t) :
    Sys2Proof.core.run (k + 1) s = Sys2Proof.core.run k t :=
  run_succ Sys2Proof.core k h

end Sys2Proof.Machine
end

