-- ==== Sys2Proof/Laws/PerInstr.lean ====
section
/-! SUPPORT. Statements about every instruction as syntax, one lemma for each constructor. -/

namespace Sys2Proof.Laws.EncodedLength

/-- A whole instruction is encoded in as many bytes as its opcode's length (30_encoding.md R56), the first of which
alone says which instruction it is. -/
def Statement (i : Instr) : Prop :=
  WellFormed i = true → (encode i).length = i.length ∧
    ∀ a b : Operand, ∃ j, (encode i).head?.bind (lookup · a b) = some j ∧ j.length = i.length

theorem ldi (ra imm : Operand) : Statement (.ldi ra imm) := by
  intro h
  cases ra <;> cases imm <;> simp_all [WellFormed, encode, Instr.length]

theorem prn (ra : Operand) : Statement (.prn ra) := by
  intro h
  cases ra <;> simp_all [WellFormed, encode, Instr.length]

theorem mul (ra rb : Operand) : Statement (.mul ra rb) := by
  intro h
  cases ra <;> cases rb <;> simp_all [WellFormed, encode, Instr.length]

theorem hlt : Statement .hlt := by
  intro _
  simp [encode, Instr.length]

end Sys2Proof.Laws.EncodedLength
end

