-- ==== Sys2Proof/Laws/Safety.lean ====
section
/-! SUPPORT. The small lemmas of the terms in Safety.lean. -/

namespace Sys2Proof.Machine

/-- Raising a fault is what `FaultedFrom` says. -/
theorem faultedFrom_raise (s : State) (e : Raised) : FaultedFrom s (s.raise e) e.fault e.value :=
  ⟨rfl, rfl, rfl, rfl, rfl, rfl⟩

/-- An illegal opcode has no entry in the table. -/
theorem lookup_of_illegal {op : Byte} (h : IllegalOpcode op) (a b : Operand) : lookup op a b = none := by
  simp [lookup, opLdi, opPrn, opMul, opHlt, h.1, h.2.1, h.2.2.1, h.2.2.2]

/-- The record of a core that has not faulted reads as no fault. -/
theorem State.RecordTogether.cause_none {s : State} (h : s.RecordTogether) (hr : s.run ≠ .faulted) :
    s.fault.cause = none := by
  by_contra hc
  exact hr (h.1.mpr hc)

end Sys2Proof.Machine
end

