-- ==== Sys2Proof/Machine/Assembly.lean ====
section
/-! DEFINITION. The assembler text of an instruction (30_encoding.md R69). -/

namespace Sys2Proof.Machine

/-- A register operand as text: `r` and its index 0 to 7; a byte of 8 or more names no register (30_encoding.md R69). -/
def registerText (a : Byte) : Option (List Char) :=
  if a.toNat < 8 then some ('r' :: decimal a) else none

/-- An instruction as assembler text: the mnemonic and its operands, registers by name and the immediate in decimal;
`none` where an operand is missing or names no register (30_encoding.md R69). -/
def assembly : Instr → Option (List Char)
  | .ldi (some a) (some v) => (registerText a).map (fun r => ['L', 'D', 'I', ' '] ++ r ++ ',' :: decimal v)
  | .prn (some a) => (registerText a).map (fun r => ['P', 'R', 'N', ' '] ++ r)
  | .mul (some a) (some b) =>
    (registerText a).bind (fun r => (registerText b).map (fun q => ['M', 'U', 'L', ' '] ++ r ++ ',' :: q))
  | .hlt => some ['H', 'L', 'T']
  | .ldi _ none => none
  | .ldi none _ => none
  | .prn none => none
  | .mul _ none => none
  | .mul none _ => none

end Sys2Proof.Machine
end

