-- ==== Sys2Proof/Machine/Flags.lean ====
section
/-! DEFINITION. Flag computations: the spec gives NONE. The hardware has no flags or condition-code register
(10_state.md R20), and the ALU sets no flags (42_alu_mul.md R95), so this file holds no definition. -/
end

