-- ==== Sys2Proof/Tests/Slice0.lean ====
section
/-! SUPPORT. Tests: words and vectors of the spec (30_encoding.md, 95_test_vectors.md), ill-formed terms, and a witness for the hypotheses of every statement. -/

namespace Sys2Proof.Tests

open Sys2Proof Sys2Proof.Machine

/-! ### Small states -/

/-- RUNNING at `pc`, with bytes from `pc` on, and every other piece of state as after reset
(95_test_vectors.md, section 2). -/
def at_ (pc : Nat) (bs : List Byte) : State :=
  { State.reset with pc := BitVec.ofNat 9 pc, run := .running, mem := Memory.place [] pc bs }

/-- The same with one register set. -/
def atR (pc : Nat) (bs : List Byte) (r : Fin 8) (v : Byte) : State := (at_ pc bs).setReg r v

/-- Whether a step answers a next state with a property. -/
def after (s : State) (p : State → Bool) : Bool :=
  match step s with
  | .next t => p t
  | .fault _ => false
  | .refused _ => false

/-! ### WellFormed refuses an ill-formed term for each check -/

theorem test_wf_ldi_without_register : WellFormed (.ldi none (some 1#8)) = false := by decide
theorem test_wf_ldi_without_immediate : WellFormed (.ldi (some 1#8) none) = false := by decide
theorem test_wf_prn_without_register : WellFormed (.prn none) = false := by decide
theorem test_wf_mul_without_first : WellFormed (.mul none (some 1#8)) = false := by decide
theorem test_wf_mul_without_second : WellFormed (.mul (some 1#8) none) = false := by decide

/-! ### Words written out from 30_encoding.md R57 to R60 -/

theorem test_decode_ldi : decode [0b10000010#8, 0b00000111#8, 0b11111111#8] = .ok (.ldi (some 7#8) (some 255#8)) := by decide
theorem test_decode_prn : decode [0b01000111#8, 0b00000101#8, 0b11111111#8] = .ok (.prn (some 5#8)) := by decide
theorem test_decode_mul : decode [0b10100010#8, 0b00000110#8, 0b00000100#8] = .ok (.mul (some 6#8) (some 4#8)) := by decide
theorem test_decode_hlt : decode [0b00000001#8, 0b11111111#8] = .ok .hlt := by decide
theorem test_decode_cut_off : decode [0b10100010#8, 0b00000110#8] = .ok (.mul (some 6#8) none) := by decide
theorem test_decode_index_not_masked : decode [0b01000111#8, 0b00001000#8] = .ok (.prn (some 8#8)) := by decide
/-- 95_test_vectors.md F2, F4 to F7: 0xA0 and the one-bit neighbours of the four opcodes are illegal. -/
theorem test_decode_neighbours : [0xA0#8, 0x83#8, 0x46#8, 0xA3#8, 0x03#8].all
    (fun op => decide (decode [op, 0#8, 1#8] = .error (.unrecognizedOpcode op))) = true := by decide
theorem test_table_words : decodeTableWord 24 0x82 = some (.ldi (some 0#8) (some 0#8)) ∧
    decodeTableWord 16 0x0347 = some (.prn (some 3#8)) ∧
    decodeTableWord 24 0x0201A2 = some (.mul (some 1#8) (some 2#8)) ∧
    decodeTableWord 8 0x01 = some .hlt ∧ decodeTableWord 8 0 = none := by decide

/-! ### Vectors of 95_test_vectors.md, one step each -/

/-- L2. -/
theorem test_ldi_r7_255 : after (at_ 0 [0x82#8, 7#8, 0xFF#8])
    (fun t => t.pc == 3#9 && t.reg 7 == 255#8 && t.run == .running) = true := by decide
/-- L10: the address fault beats the register fault. -/
theorem test_ldi_at_254 : after (at_ 254 [0x82#8, 9#8])
    (fun t => t.fault == ⟨some .outOfRangeAddress, 254#9, 256#9⟩ && t.pc == 254#9) = true := by decide
/-- N1. -/
theorem test_prn_72 : after (atR 9 [0x47#8, 0#8] 0 72#8)
    (fun t => t.pc == 11#9 && t.out == [72#8]) = true := by decide
/-- N6: completes at 254, with `pc` past the end. -/
theorem test_prn_at_254 : after (atR 254 [0x47#8, 3#8] 3 7#8)
    (fun t => t.pc == 256#9 && t.out == [7#8] && t.run == .running) = true := by decide
/-- M10: operand order. -/
theorem test_mul_operand_order : after ((atR 0 [0xA2#8, 1#8, 0#8] 0 8#8).setReg 1 9#8)
    (fun t => t.reg 0 == 8#8 && t.reg 1 == 72#8 && t.pc == 3#9) = true := by decide
/-- M8 and the wrap of M2, on one register: 15 gives 225; 17 gives 289 mod 256. -/
theorem test_mul_same_register :
    after (atR 0 [0xA2#8, 2#8, 2#8] 2 15#8) (fun t => t.reg 2 == 225#8) = true ∧
    after (atR 0 [0xA2#8, 2#8, 2#8] 2 17#8) (fun t => t.reg 2 == 33#8) = true := by decide
/-- H2: the operand fetches past the end do not matter. -/
theorem test_hlt_at_255 : after (at_ 255 [0x01#8])
    (fun t => t.run == .halted && t.pc == 255#9 && t.fault == State.reset.fault) = true := by decide
/-- F9: an illegal opcode at 255 is no address fault. -/
theorem test_illegal_at_255 : after (at_ 255 [])
    (fun t => t.fault == ⟨some .unrecognizedOpcode, 255#9, 0#9⟩ && t.run == .faulted) = true := by decide
/-- F10. -/
theorem test_fetch_at_256 : after (at_ 256 [])
    (fun t => t.fault == ⟨some .outOfRangeAddress, 256#9, 256#9⟩ && t.pc == 256#9) = true := by decide
/-- A1 to A10. -/
theorem test_alu_vectors : alu 1#2 8#8 9#8 = some 72#8 ∧ alu 1#2 16#8 17#8 = some 16#8 ∧
    alu 1#2 255#8 255#8 = some 1#8 ∧ alu 1#2 0#8 255#8 = some 0#8 ∧ alu 0#2 200#8 100#8 = some 44#8 ∧
    alu 0#2 255#8 1#8 = some 0#8 ∧ alu 0#2 127#8 128#8 = some 255#8 ∧ alu 2#2 1#8 1#8 = none ∧
    alu 3#2 1#8 1#8 = none := by decide
/-- The first step after reset runs a table word. -/
theorem test_first_instruction : after (State.reset.withFetchWord 24 0x0500A2)
    (fun t => t.run == .running && t.pc == 3#9) = true := by decide
/-- 30_encoding.md R71: literals, short literals, comments and blank lines. -/
theorem test_program_text : parseImage
    ['1','0','0','0','0','0','1','0',' ','#',' ','L','\n','#','x','\n','\n','0','\n','1','0','0','0','\n']
    = some [0x82#8, 0x00#8, 0x08#8] := by decide
/-- 60_exceptions.md R117 on the values of N1 to N3. -/
theorem test_printed : printed [72#8, 0#8, 255#8] = ['7','2','\n','0','\n','2','5','5','\n'] := by decide

/-- 30_encoding.md R69, the source's examples. -/
theorem test_assembly : assembly (.ldi (some 0#8) (some 8#8)) = some ['L','D','I',' ','r','0',',','8'] ∧
    assembly (.mul (some 0#8) (some 1#8)) = some ['M','U','L',' ','r','0',',','r','1'] ∧
    assembly (.prn (some 0#8)) = some ['P','R','N',' ','r','0'] ∧ assembly .hlt = some ['H','L','T'] ∧
    assembly (.prn (some 8#8)) = none := by decide

/-! ### Witnesses: each statement's hypotheses are met, at the values where clauses meet -/

theorem witness_EncodedInstructionDecodes :
    WellFormed (.ldi (some 255#8) (some 0#8)) = true ∧ WellFormed (.prn (some 8#8)) = true ∧
    WellFormed (.mul (some 0#8) (some 255#8)) = true ∧ WellFormed .hlt = true := by decide
theorem witness_DecodedInstructionIsItsBytes :
    decode [0x82#8] = .ok (.ldi none none) ∧ decode [0x82#8, 1#8] = .ok (.ldi (some 1#8) none) ∧
    decode [0x82#8, 1#8, 2#8] = .ok (.ldi (some 1#8) (some 2#8)) := by decide
theorem witness_OtherOpcodesAreIllegal :
    (∀ op ∈ [0x00#8, 0x02#8, 0x46#8, 0x48#8, 0x81#8, 0x83#8, 0xA1#8, 0xA3#8, 0xFF#8], IllegalOpcode op) ∧
    (at_ 255 [0x02#8]).run = .running ∧ (at_ 255 [0x02#8]).pc.toNat < 256 ∧
    IllegalOpcode ((at_ 255 [0x02#8]).memAt (at_ 255 [0x02#8]).pc.toNat) := by decide
theorem witness_TrailingBytesDoNotMatter :
    (at_ 0 [0x47#8, 0#8, 9#8]).run = .running ∧ (at_ 0 [0x47#8, 0#8, 9#8]).fetch = .ok (.prn (some 0#8)) ∧
    after (at_ 0 [0x47#8, 0#8, 9#8]) (fun t => t.run == .running) = true ∧
    (∀ k, k < (Instr.prn (some 0#8)).length → Memory.read (Memory.place [] 0 [0x47#8, 0#8, 1#8]) k =
      (at_ 0 [0x47#8, 0#8, 9#8]).memAt k) := by decide
theorem witness_StepRunsTheDecodedInstruction :
    (at_ 0 [0x82#8, 1#8, 2#8]).run = .running ∧
    decode (at_ 0 [0x82#8, 1#8, 2#8]).codeBytes = .ok (.ldi (some 1#8) (some 2#8)) ∧
    decode (at_ 255 [0x82#8]).codeBytes = .ok (.ldi none none) := by decide
theorem witness_PlacedWordIsTheNextInstruction :
    Memory.wf (at_ 253 []).mem = true ∧ (at_ 253 []).pc.toNat ≤ 253 ∧
    decodeTableWord 24 0x020182 = some (.ldi (some 1#8) (some 2#8)) := by decide
theorem witness_DispatchByTheTable :
    (∀ op ∈ [0x82#8, 0x47#8, 0xA2#8, 0x01#8, 0x00#8], (at_ 255 [op]).run = .running ∧
      (at_ 255 [op]).pc.toNat < 256 ∧ (at_ 255 [op]).memAt 255 = op) := by decide
theorem witness_NoStepUnlessRunning :
    State.reset.run = .idle ∧ State.reset.halt.run = .halted ∧
    (State.reset.raise ⟨.outOfRangeAddress, 256#9⟩).run = .faulted := by decide
theorem witness_FetchReadsThreeBytes :
    (at_ 256 []).run = .running ∧ 256 ≤ (at_ 256 []).pc.toNat ∧ 256 ≤ (at_ 511 []).pc.toNat ∧
    (at_ 255 []).pc.toNat < 256 ∧ (at_ 0 []).pc.toNat < 256 := by decide
theorem witness_ArchitecturalReadIsChecked :
    (255#9 : Addr).toNat < 256 ∧ 256 ≤ (256#9 : Addr).toNat ∧ 256 ≤ (at_ 256 []).pc.toNat := by decide
theorem witness_OperandPastMemoryFaultsWhenUsed :
    (∀ op ∈ [0x82#8, 0xA2#8], ∀ p ∈ [254, 255], (at_ p [op]).run = .running ∧ (at_ p [op]).pc.toNat = p ∧
      (at_ p [op]).memAt p = op) ∧
    (∀ op ∈ [0x47#8, 0x01#8], (at_ 255 [op]).pc.toNat = 255 ∧ (at_ 255 [op]).memAt 255 = op) ∧
    (at_ 254 [0x47#8]).pc.toNat = 254 ∧ (at_ 254 [0x47#8]).memAt 254 = 0x47#8 := by decide
theorem witness_RegisterIndexIsTheWholeByte : (7#8 : Byte).toNat < 8 ∧ 8 ≤ (8#8 : Byte).toNat := by decide
theorem witness_StepIsAtomic : (at_ 0 []).run = .running := by decide
theorem witness_ControlFlowIsSequential :
    ∀ bs ∈ [[0x82#8, 7#8, 1#8], [0xA2#8, 7#8, 0#8]],
      (at_ 253 bs).run = .running ∧ after (at_ 253 bs) (fun t => t.run == .running) = true := by decide
theorem witness_FrameOfEveryStep :
    after State.reset (fun _ => true) = true ∧ after (at_ 254 [0x47#8, 0#8]) (fun t => t.out == [0#8]) = true ∧
    after (at_ 253 [0x82#8, 7#8, 1#8]) (fun t => t.reg 7 == 1#8) = true ∧
    after (at_ 253 [0xA2#8, 7#8, 1#8]) (fun t => t.reg 7 == 0#8) = true := by decide
theorem witness_LdiCompletes :
    (0#8 : Byte).toNat < 8 ∧ (7#8 : Byte).toNat < 8 ∧ (at_ 253 []).pc.toNat ≤ 253 := by decide
theorem witness_PrnCompletes :
    (0#8 : Byte).toNat < 8 ∧ (7#8 : Byte).toNat < 8 ∧ (at_ 254 []).pc.toNat ≤ 254 := by decide
theorem witness_MulCompletes :
    (0#8 : Byte).toNat < 8 ∧ (7#8 : Byte).toNat < 8 ∧ (at_ 253 []).pc.toNat ≤ 253 := by decide
theorem witness_RegisterOperandTraps :
    8 ≤ (8#8 : Byte).toNat ∧ 8 ≤ (255#8 : Byte).toNat ∧ (7#8 : Byte).toNat < 8 := by decide
theorem witness_LdiLoadsTheImmediate :
    (at_ 253 [0x82#8, 7#8, 255#8]).run = .running ∧ (at_ 253 [0x82#8, 7#8, 255#8]).pc.toNat ≤ 253 ∧
    (at_ 253 [0x82#8, 7#8, 255#8]).memAt 253 = 0x82#8 ∧ (at_ 253 [0x82#8, 7#8, 255#8]).memAt 254 = 7#8 ∧
    (at_ 253 [0x82#8, 7#8, 255#8]).memAt 255 = 255#8 ∧
    (at_ 0 [0x82#8, 0#8, 8#8]).pc = 0#9 ∧ (at_ 0 [0x82#8, 0#8, 8#8]).memAt 0 = 0x82#8 ∧
    (at_ 0 [0x82#8, 0#8, 8#8]).memAt 1 = 0#8 ∧ (at_ 0 [0x82#8, 0#8, 8#8]).memAt 2 = 8#8 := by decide
theorem witness_PrnPrintsOneLine :
    (at_ 254 [0x47#8, 7#8]).run = .running ∧ (at_ 254 [0x47#8, 7#8]).pc.toNat ≤ 254 ∧
    (at_ 254 [0x47#8, 7#8]).memAt 254 = 0x47#8 ∧ (at_ 254 [0x47#8, 7#8]).memAt 255 = 7#8 ∧
    (atR 9 [0x47#8, 0#8] 0 72#8).pc = 9#9 ∧ (atR 9 [0x47#8, 0#8] 0 72#8).reg 0 = 72#8 ∧
    (atR 9 [0x47#8, 0#8] 0 72#8).memAt 9 = 0x47#8 ∧ (atR 9 [0x47#8, 0#8] 0 72#8).memAt 10 = 0#8 := by decide
theorem witness_MulWritesTheProduct :
    (at_ 253 [0xA2#8, 7#8, 7#8]).run = .running ∧ (at_ 253 [0xA2#8, 7#8, 7#8]).pc.toNat ≤ 253 ∧
    (at_ 253 [0xA2#8, 7#8, 7#8]).memAt 253 = 0xA2#8 ∧ (at_ 253 [0xA2#8, 7#8, 7#8]).memAt 254 = 7#8 ∧
    (at_ 253 [0xA2#8, 7#8, 7#8]).memAt 255 = 7#8 := by decide
theorem witness_MulWritesTheProduct_example :
    let s := (atR 6 [0xA2#8, 0#8, 1#8] 0 8#8).setReg 1 9#8
    s.run = .running ∧ s.pc = 6#9 ∧ s.reg 0 = 8#8 ∧ s.reg 1 = 9#8 ∧ s.memAt 6 = 0xA2#8 ∧ s.memAt 7 = 0#8 ∧
      s.memAt 8 = 1#8 := by decide
theorem witness_HaltEndsTheRun :
    (at_ 255 [0x01#8]).run = .running ∧ (at_ 255 [0x01#8]).pc.toNat < 256 ∧
    (at_ 255 [0x01#8]).memAt (at_ 255 [0x01#8]).pc.toNat = 0x01#8 := by decide
theorem witness_UnsupportedOperationRaises :
    (2#2 : BitVec 2) ≠ 0#2 ∧ (2#2 : BitVec 2) ≠ 1#2 ∧ (3#2 : BitVec 2) ≠ 0#2 ∧ (3#2 : BitVec 2) ≠ 1#2 ∧
    after (at_ 0 []) (fun t => t.fault.cause == some .unrecognizedOpcode) = true ∧
    (at_ 0 []).fault.cause ≠ some .unsupportedAluOperation := by decide
theorem witness_ArithmeticLaws : (15#8 : Byte).toNat * (17#8 : Byte).toNat < 256 ∧
    (127#8 : Byte).toNat + (128#8 : Byte).toNat < 256 := by decide
/-- Each entry of the list of priorities, where two apply, and none. -/
theorem witness_FirstFaultIsTaken :
    (at_ 256 []).firstFault = some ⟨.outOfRangeAddress, 256#9⟩ ∧
    (at_ 255 [0x02#8]).firstFault = some ⟨.unrecognizedOpcode, 2#9⟩ ∧
    (at_ 255 [0x82#8]).firstFault = some ⟨.outOfRangeAddress, 256#9⟩ ∧
    (at_ 254 [0xA2#8, 9#8]).firstFault = some ⟨.outOfRangeAddress, 256#9⟩ ∧
    (at_ 253 [0xA2#8, 9#8, 8#8]).firstFault = some ⟨.outOfRangeRegister, 9#9⟩ ∧
    (at_ 253 [0xA2#8, 7#8, 8#8]).firstFault = some ⟨.outOfRangeRegister, 8#9⟩ ∧
    (at_ 254 [0x47#8, 8#8]).firstFault = some ⟨.outOfRangeRegister, 8#9⟩ ∧
    (at_ 253 [0x82#8, 7#8, 255#8]).firstFault = none ∧ (at_ 255 [0x01#8]).firstFault = none := by decide
theorem witness_EmptyProgramFaults :
    parseImage ['#', ' ', 'x', '\n', '\n'] = some [] ∧ parseImage [] = some [] ∧ IllegalOpcode 0x00#8 ∧
    (at_ 255 []).pc.toNat < 256 ∧ (at_ 255 []).memAt (at_ 255 []).pc.toNat = 0x00#8 := by decide
theorem witness_StepKeepsTheInvariant :
    (at_ 253 [0x82#8, 7#8, 1#8]).Inv ∧ (at_ 256 []).Inv ∧ State.reset.halt.Inv ∧
    after (at_ 256 []) (fun t => t.run == .faulted) = true :=
  ⟨by decide, by decide, by decide, by decide⟩
theorem witness_HostActionKeepsTheInvariant :
    State.reset.Inv ∧ act (.write 255#9 1#8) State.reset = .next (State.reset.setMem 255 1#8) :=
  ⟨by decide, rfl⟩
theorem witness_RunEndsWithin129Steps : (at_ 0 [0x47#8, 0#8]).run = .running ∧ (at_ 511 []).run = .running := by decide
theorem witness_RunStateTransitions :
    State.reset.run = .idle ∧ act .start State.reset = .next State.reset.start ∧
    (at_ 255 [0x01#8]).fetch = .ok .hlt ∧ (at_ 0 []).firstFault = some ⟨.unrecognizedOpcode, 0#9⟩ :=
  ⟨rfl, rfl, by decide, by decide⟩
theorem witness_ResetPutsEveryPieceOfState :
    State.reset.halt.Terminal ∧ (State.reset.raise ⟨.outOfRangeAddress, 256#9⟩).Terminal ∧
    HostAction.start ≠ .reset ∧ act .start State.reset.halt = .next State.reset.halt :=
  ⟨by decide, by decide, by decide, rfl⟩
theorem witness_StartActsInIdleOnly :
    State.reset.run = .idle ∧ State.reset.pc = 0#9 ∧ (at_ 0 []).run = .running ∧
    act (.write 0#9 1#8) State.reset = .next (State.reset.setMem 0 1#8) :=
  ⟨rfl, rfl, rfl, rfl⟩
theorem witness_HostWriteReachesOneCell :
    State.reset.run = .idle ∧ (255#9 : Addr).toNat < 256 ∧ 256 ≤ (256#9 : Addr).toNat ∧
    Memory.wf State.reset.mem = true ∧ (at_ 0 []).run ≠ .idle := by decide
theorem witness_LoadAndStartGiveLaunch :
    ([] : List Byte).length ≤ 256 ∧ (List.replicate 256 (1#8 : Byte)).length ≤ 256 :=
  ⟨Nat.zero_le _, Nat.le_of_eq List.length_replicate⟩

/-- A file of `n` lines that each spell the byte 1. -/
def ones : Nat → List Char
  | 0 => []
  | n + 1 => '1' :: '\n' :: ones n

theorem parseImage_ones : ∀ n, parseImage (ones n) = some (List.replicate n 1#8)
  | 0 => by decide
  | n + 1 => by
    have hs : splitLines (ones (n + 1)) = ['1'] :: splitLines (ones n) := by
      simp [ones, splitLines]
    have hp : parseLine ['1'] = .byte 1#8 := by decide
    have ih := parseImage_ones n
    unfold parseImage at ih ⊢
    simp [hs, parseLines, hp, ih, List.replicate_succ]

theorem witness_FailedLoadLeavesTheCoreIdle :
    State.reset.run = .idle ∧ parseImage ['2'] = none ∧ 
    ((splitLines ['2']).filter (fun l => decide (parseLine l ≠ .skip))).length ≤ 256 ∧ '#' ∉ ['1', '2'] ∧
    parseLine ['1', '2'] = .malformed ∧
    (∀ c ∈ ['1', '2'], isBlank c = false ∧ c ≠ '#') ∧ (∃ c ∈ ['1', '2'], c ≠ '0' ∧ c ≠ '1') ∧ 8 < (List.replicate 9 '0').length ∧
    (∀ c ∈ List.replicate 9 '0', c = '0' ∨ c = '1') ∧
    (parseImage (ones 257) = some (List.replicate 257 1#8) ∧ 256 < (List.replicate 257 (1#8 : Byte)).length) ∧
    (session none 0 State.reset).outcome = some (.loadFailed .programNotFound) :=
  ⟨rfl, by decide, by decide, by decide, by decide, by simp [isBlank], ⟨'2', by simp, by decide, by decide⟩, by decide, fun _ hc => .inl (List.eq_of_mem_replicate hc), ⟨parseImage_ones 257, Nat.lt_of_lt_of_eq (by decide) List.length_replicate.symm⟩, rfl⟩
theorem witness_ProgramFileLines :
    (∀ ds ∈ [['1'], ['0', '0', '0', '0', '1', '0', '0', '0']],
      1 ≤ ds.length ∧ ds.length ≤ 8 ∧ ∀ c ∈ ds, c = '0' ∨ c = '1') ∧
    parseLine [' ', '#', 'x'] = .skip ∧ '#' ∉ [' ', '1'] ∧ (∀ c ∈ [' ', '\t', '\r'], isBlank c = true) ∧ '\n' ∉ ['1', '#', 'x'] ∧ parseLine ['1', '#', 'x'] = .byte 1#8 ∧
    (parseImage (ones 256) = some (List.replicate 256 1#8) ∧ (List.replicate 256 (1#8 : Byte)).length ≤ 256) :=
  ⟨by simp, by decide, by decide, by simp [isBlank], by decide, by decide, ⟨parseImage_ones 256, Nat.le_of_eq List.length_replicate⟩⟩

/-- One choice of exit statuses. -/
def someExitCode : RunOutcome → Int
  | .halted => 0
  | .fault .unrecognizedOpcode => 1
  | .fault .outOfRangeAddress => 2
  | .fault .outOfRangeRegister => 3
  | .fault .unsupportedAluOperation => 4
  | .loadFailed .programNotFound => 5
  | .loadFailed .malformedInstruction => 6
  | .loadFailed .imageTooLarge => 7
  | .budgetExceeded => 8

/-- One choice of messages. -/
def someMessage : RunOutcome → String
  | .halted => "Halted"
  | .fault .unrecognizedOpcode => "UnrecognizedOpcode"
  | .fault .outOfRangeAddress => "OutOfRangeAddress"
  | .fault .outOfRangeRegister => "OutOfRangeRegister"
  | .fault .unsupportedAluOperation => "UnsupportedAluOperation"
  | .loadFailed .programNotFound => "ProgramNotFound"
  | .loadFailed .malformedInstruction => "MalformedInstruction"
  | .loadFailed .imageTooLarge => "ImageTooLarge"
  | .budgetExceeded => "BudgetExceeded"

/-- The host can report every outcome apart. -/
def someReporting : HostReporting where
  exitCode := someExitCode
  message := someMessage
  exitCode_injective := by
    rintro (_ | (_ | _ | _ | _) | (_ | _ | _) | _) (_ | (_ | _ | _ | _) | (_ | _ | _) | _) <;>
      simp [someExitCode]
  message_injective := by
    rintro (_ | (_ | _ | _ | _) | (_ | _ | _) | _) (_ | (_ | _ | _ | _) | (_ | _ | _) | _) <;>
      simp [someMessage]

theorem witness_EveryRunIsClassified :
    RunOutcome.halted ≠ .budgetExceeded ∧ someReporting.exitCode .halted = 0 ∧
    classify (at_ 0 []) = some .budgetExceeded ∧ classify State.reset.halt = some .halted ∧
    classify (State.reset.raise ⟨.outOfRangeAddress, 256#9⟩) = some (.fault .outOfRangeAddress) :=
  ⟨by decide, rfl, rfl, rfl, rfl⟩
theorem witness_HostStopChangesNothing : (hostRun 0 (at_ 0 [])).run = .running ∧ 129 ≤ 129 := by decide
theorem witness_SessionsDoNotInfluenceEachOther :
    parseImage ['1', '\n'] = some [1#8] ∧ parseImage ['0', '1', '#'] = some [1#8] := by decide
theorem witness_StatusAndDebugReads :
    State.reset.fault.cause = none ∧
    (State.reset.raise ⟨.outOfRangeAddress, 256#9⟩).fault.cause = some .outOfRangeAddress := by decide

end Sys2Proof.Tests
end

section
/-! PROOFS. The run state: what a step makes of it, read against the spec's order of faults, and its transitions
(10_state.md R24). -/

namespace Sys2Proof.Machine

variable (s : State)

/-! ### The spec's list of faults, opcode by opcode (60_exceptions.md R106) -/

theorem State.firstFault_of_ge (h : 256 ≤ s.pc.toNat) : s.firstFault = some ⟨.outOfRangeAddress, s.pc⟩ := by
  simp [State.firstFault, h]

theorem State.firstFault_of_illegal (h : s.pc.toNat < 256) (hop : IllegalOpcode (s.memAt s.pc.toNat)) :
    s.firstFault = some ⟨.unrecognizedOpcode, (s.memAt s.pc.toNat).setWidth 9⟩ := by
  simp only [State.firstFault, if_neg (Nat.not_le.mpr h), if_pos hop]

theorem State.firstFault_of_hlt (h : s.pc.toNat < 256) (hop : s.memAt s.pc.toNat = opHlt) :
    s.firstFault = none := by
  simp [State.firstFault, Nat.not_le.mpr h, hop, opHlt]

theorem State.firstFault_of_ldi (h : s.pc.toNat < 256) (hop : s.memAt s.pc.toNat = opLdi) :
    s.firstFault =
      if 255 ≤ s.pc.toNat then some ⟨.outOfRangeAddress, s.pc + 1#9⟩
      else if 254 ≤ s.pc.toNat then some ⟨.outOfRangeAddress, s.pc + 2#9⟩
      else if 8 ≤ (s.memAt (s.pc.toNat + 1)).toNat then
        some ⟨.outOfRangeRegister, (s.memAt (s.pc.toNat + 1)).setWidth 9⟩
      else none := by
  simp [State.firstFault, Nat.not_le.mpr h, hop, opLdi, BitVec.ofNat_add]

theorem State.firstFault_of_prn (h : s.pc.toNat < 256) (hop : s.memAt s.pc.toNat = opPrn) :
    s.firstFault =
      if 255 ≤ s.pc.toNat then some ⟨.outOfRangeAddress, s.pc + 1#9⟩
      else if 8 ≤ (s.memAt (s.pc.toNat + 1)).toNat then
        some ⟨.outOfRangeRegister, (s.memAt (s.pc.toNat + 1)).setWidth 9⟩
      else none := by
  simp [State.firstFault, Nat.not_le.mpr h, hop, opPrn, BitVec.ofNat_add]

theorem State.firstFault_of_mul (h : s.pc.toNat < 256) (hop : s.memAt s.pc.toNat = opMul) :
    s.firstFault =
      if 255 ≤ s.pc.toNat then some ⟨.outOfRangeAddress, s.pc + 1#9⟩
      else if 254 ≤ s.pc.toNat then some ⟨.outOfRangeAddress, s.pc + 2#9⟩
      else if 8 ≤ (s.memAt (s.pc.toNat + 1)).toNat then
        some ⟨.outOfRangeRegister, (s.memAt (s.pc.toNat + 1)).setWidth 9⟩
      else if 8 ≤ (s.memAt (s.pc.toNat + 2)).toNat then
        some ⟨.outOfRangeRegister, (s.memAt (s.pc.toNat + 2)).setWidth 9⟩
      else none := by
  simp [State.firstFault, Nat.not_le.mpr h, hop, opMul, BitVec.ofNat_add]

theorem State.fetch_of_hlt (h : s.pc.toNat < 256) (hop : s.memAt s.pc.toNat = opHlt) : s.fetch = .ok .hlt := by
  rw [s.fetch_of_lt h, hop, recognize_of_some (lookup_hlt _ _)]

/-! ### A step against that list -/

/-- The byte of a register index is below 8. -/
theorem toNat_regByte_lt (i : Fin 8) : (BitVec.ofNat 8 i.val).toNat < 8 := by
  simp only [BitVec.toNat_ofNat]; omega

variable {s}

/-- A step of a RUNNING core takes the first fault of the spec's list; where the list has none it halts on HLT or
completes, and records nothing (40_fetch_execute.md R81; 60_exceptions.md R106). -/
theorem StepShape.firstFault_cases {t : State} (h : StepShape s t) :
    (∃ e, s.firstFault = some e ∧ t = s.raise e) ∨
    (s.firstFault = none ∧ s.fetch = .ok .hlt ∧ t = s.halt) ∨
    (s.firstFault = none ∧ t.run = s.run ∧ t.fault = s.fault) := by
  cases h with
  | fetchPast h => exact .inl ⟨_, s.firstFault_of_ge h, rfl⟩
  | illegal h hop => exact .inl ⟨_, s.firstFault_of_illegal h hop, rfl⟩
  | operandA h hop =>
    refine .inl ⟨_, ?_, rfl⟩
    have hp : s.pc.toNat < 256 := by omega
    rcases hop with hop | hop | hop
    · rw [s.firstFault_of_ldi hp hop, if_pos (by omega)]
    · rw [s.firstFault_of_prn hp hop, if_pos (by omega)]
    · rw [s.firstFault_of_mul hp hop, if_pos (by omega)]
  | operandB h hop =>
    refine .inl ⟨_, ?_, rfl⟩
    have hp : s.pc.toNat < 256 := by omega
    rcases hop with hop | hop
    · rw [s.firstFault_of_ldi hp hop, if_neg (by omega), if_pos (by omega)]
    · rw [s.firstFault_of_mul hp hop, if_neg (by omega), if_pos (by omega)]
  | indexA h hop ha =>
    refine .inl ⟨_, ?_, rfl⟩
    have hp : s.pc.toNat < 256 := by omega
    rcases hop with hop | ⟨h', hop | hop⟩
    · rw [s.firstFault_of_prn hp hop, if_neg (by omega), if_pos ha]
    · rw [s.firstFault_of_ldi hp hop, if_neg (by omega), if_neg (by omega), if_pos ha]
    · rw [s.firstFault_of_mul hp hop, if_neg (by omega), if_neg (by omega), if_pos ha]
  | indexB h hop ha hb =>
    refine .inl ⟨_, ?_, rfl⟩
    rw [s.firstFault_of_mul (by omega) hop, if_neg (by omega), if_neg (by omega), if_neg (by omega), if_pos hb]
  | halt h hop => exact .inr (.inl ⟨s.firstFault_of_hlt h hop, s.fetch_of_hlt h hop, rfl⟩)
  | ldi h hop i ha =>
    have hi := toNat_regByte_lt i
    refine .inr (.inr ⟨?_, rfl, rfl⟩)
    rw [s.firstFault_of_ldi (by omega) hop, ha, if_neg (by omega), if_neg (by omega), if_neg (by omega)]
  | prn h hop i ha =>
    have hi := toNat_regByte_lt i
    refine .inr (.inr ⟨?_, rfl, rfl⟩)
    rw [s.firstFault_of_prn (by omega) hop, ha, if_neg (by omega), if_neg (by omega)]
  | mul h hop i j ha hb =>
    have hi := toNat_regByte_lt i
    have hj := toNat_regByte_lt j
    refine .inr (.inr ⟨?_, rfl, rfl⟩)
    rw [s.firstFault_of_mul (by omega) hop, ha, hb, if_neg (by omega), if_neg (by omega), if_neg (by omega),
      if_neg (by omega)]

/-- A step of a RUNNING core raises the first fault of the spec's list (60_exceptions.md R106). -/
theorem step_of_firstFault {e : Raised} (hr : s.run = .running) (he : s.firstFault = some e) :
    step s = .next (s.raise e) := by
  obtain ⟨t, ht, hs⟩ := step_cases s hr
  rcases hs.firstFault_cases with ⟨e', he', rfl⟩ | ⟨hn, -, -⟩ | ⟨hn, -, -⟩
  · obtain rfl : e' = e := Option.some.inj (he'.symm.trans he)
    exact ht
  · simp [he] at hn
  · simp [he] at hn

/-! ### The transitions of the run state (10_state.md R24) -/

theorem step_of_fetch_hlt (hr : s.run = .running) (hf : s.fetch = .ok .hlt) : step s = .next s.halt := by
  rw [step_of_fetch_ok s hr hf]; exact execHlt_next s

/-- A step keeps `run`, or halts a RUNNING core at HLT, or raises a fault in a RUNNING core. -/
theorem step_run_cases {t : State} (h : step s = .next t) :
    t.run = s.run ∨
    (s.run = .running ∧ s.fetch = .ok .hlt ∧ t = s.halt) ∨
    (s.run = .running ∧ ∃ e, t = s.raise e) := by
  by_cases hr : s.run = .running
  · rcases (step_shape s hr h).firstFault_cases with ⟨e, -, ht⟩ | ⟨-, hf, ht⟩ | ⟨-, ht, -⟩
    · exact .inr (.inr ⟨hr, e, ht⟩)
    · exact .inr (.inl ⟨hr, hf, ht⟩)
    · exact .inl ht
  · rw [step_of_not_running s hr] at h
    cases h
    exact .inl rfl

/-- A host action that is taken keeps `run`, or makes one of the spec's transitions. -/
theorem act_run_cases {h : HostAction} {t : State} (ht : act h s = .next t) :
    t.run = s.run ∨
    (s.run = .idle ∧ h = .start ∧ t.run = .running) ∨
    (s.run = .running ∧ h = .step ∧ t.run = .halted ∧ s.fetch = .ok .hlt) ∨
    (s.run = .running ∧ h = .step ∧ ∃ f v, FaultedFrom s t f v) ∨
    (h = .reset ∧ t.run = .idle) := by
  cases h with
  | reset =>
    cases ht
    exact .inr (.inr (.inr (.inr ⟨rfl, rfl⟩)))
  | start =>
    cases ht
    by_cases hi : s.run = .idle
    · exact .inr (.inl ⟨hi, rfl, by rw [s.start_idle hi]⟩)
    · exact .inl (by rw [s.start_of_ne_idle hi])
  | step =>
    rcases step_run_cases ht with hk | ⟨hr, hf, rfl⟩ | ⟨hr, e, rfl⟩
    · exact .inl hk
    · exact .inr (.inr (.inl ⟨hr, rfl, s.halt_run, hf⟩))
    · exact .inr (.inr (.inr (.inl ⟨hr, rfl, e.fault, e.value, faultedFrom_raise s e⟩)))
  | write a v =>
    obtain ⟨-, -, rfl⟩ := hostWrite_next s ht
    exact .inl (s.setMem_run _ _)

end Sys2Proof.Machine

open Sys2Proof.Machine

/-- Settles O38: the transitions are those of `act_run_cases`; each happens by the lemma on its action, and a host
stop is a run of no steps. -/
theorem runStateTransitions : Obligations.RunStateTransitions := by
  unfold Obligations.RunStateTransitions
  refine ⟨fun _ _ _ => act_run_cases, fun s hi => ?_, fun s hr hf => ?_, fun s hr e he => ?_, fun s => ?_, fun _ => rfl⟩
  · exact ⟨s.start, rfl, by rw [s.start_idle hi]⟩
  · exact ⟨s.halt, step_of_fetch_hlt hr hf, s.halt_run⟩
  · exact ⟨s.raise e, step_of_firstFault hr he, s.raise_run e⟩
  · exact ⟨State.reset, rfl, rfl⟩
end

section
/-! PROOFS. The checked read of memory, and the latch that stands for it (20_memory.md R40, R42). -/

namespace Sys2Proof.Machine

/-- Needing an operand's latch is reading its address: what the speculative fetch leaves out comes back as the fault of
the architectural read (20_memory.md R40, R42). -/
theorem need_opFetch_eq_memRead (s : State) (a : Addr) : need (s.opFetch a) a = s.memRead a := by
  by_cases h : a.toNat < 256
  · rw [s.opFetch_of_lt h, s.memRead_of_lt h, need_some]
  · have h' : 256 ≤ a.toNat := Nat.le_of_not_lt h
    rw [s.opFetch_of_ge h', s.memRead_of_ge h', need_none]

end Sys2Proof.Machine

open Sys2Proof.Machine

/-- Settles O11: the two cases of the read, the latch that stands for it, and the fetch, which is by definition that
read at `pc` followed by the table. -/
theorem architecturalReadIsChecked : Obligations.ArchitecturalReadIsChecked := by
  unfold Obligations.ArchitecturalReadIsChecked
  intro s a
  exact ⟨s.memRead_of_lt, s.memRead_of_ge, need_opFetch_eq_memRead s a, rfl, s.fetch_of_ge⟩
end

section
/-! PROOFS. The illegal opcodes: which bytes they are, how many, and what the decoder and the step make of them
(30_encoding.md R64). -/

namespace Sys2Proof.Machine

/-- The opcode map as numbers (30_encoding.md R60). -/
theorem illegalOpcode_iff_toNat_ne (op : Byte) :
    IllegalOpcode op ↔ op.toNat ≠ 0x82 ∧ op.toNat ≠ 0x47 ∧ op.toNat ≠ 0xA2 ∧ op.toNat ≠ 0x01 := by
  simp [IllegalOpcode, ← BitVec.toNat_inj]

/-- The gaps between the four opcodes, within the 256 values of a byte. -/
theorem illegalOpcode_iff_ranges (op : Byte) :
    IllegalOpcode op ↔
      op.toNat = 0 ∨ (0x02 ≤ op.toNat ∧ op.toNat ≤ 0x46) ∨ (0x48 ≤ op.toNat ∧ op.toNat ≤ 0x81) ∨
        (0x83 ≤ op.toNat ∧ op.toNat ≤ 0xA1) ∨ 0xA3 ≤ op.toNat := by
  rw [illegalOpcode_iff_toNat_ne]
  omega

theorem filter_illegalOpcode_eq_sdiff :
    (Finset.range 256).filter (fun n => IllegalOpcode (BitVec.ofNat 8 n)) =
      Finset.range 256 \ {0x82, 0x47, 0xA2, 0x01} := by
  ext n
  simp only [Finset.mem_filter, Finset.mem_sdiff, Finset.mem_range, Finset.mem_insert, Finset.mem_singleton,
    illegalOpcode_iff_toNat_ne, BitVec.toNat_ofNat]
  omega

/-- 256 bytes less the four of the opcode map. -/
theorem length_filter_illegalOpcode :
    ((List.range 256).filter (fun n => decide (IllegalOpcode (BitVec.ofNat 8 n)))).length = 252 := by
  change ((Finset.range 256).filter (fun n => IllegalOpcode (BitVec.ofNat 8 n))).card = 252
  have hsub : ({0x82, 0x47, 0xA2, 0x01} : Finset Nat) ⊆ Finset.range 256 := by decide
  rw [filter_illegalOpcode_eq_sdiff, Finset.card_sdiff_of_subset hsub, Finset.card_range]
  rfl

theorem decode_of_illegal {op : Byte} (h : IllegalOpcode op) (rest : List Byte) :
    decode (op :: rest) = .error (.unrecognizedOpcode op) := by
  simp [decode, lookup_of_illegal h]

/-- Fetching an illegal opcode raises UnrecognizedOpcode with the byte: it is the first fault of the spec's list. -/
theorem step_of_illegal {s : State} (hr : s.run = .running) (h : s.pc.toNat < 256)
    (hop : IllegalOpcode (s.memAt s.pc.toNat)) :
    step s = .next (s.raise ⟨.unrecognizedOpcode, (s.memAt s.pc.toNat).setWidth 9⟩) :=
  step_of_firstFault hr (s.firstFault_of_illegal h hop)

end Sys2Proof.Machine

open Sys2Proof.Machine

/-- Settles O4: what the decoder and the step make of an illegal opcode, the count of those bytes, and the ranges they
lie in. -/
theorem otherOpcodesAreIllegal : Obligations.OtherOpcodesAreIllegal := by
  unfold Obligations.OtherOpcodesAreIllegal
  refine ⟨fun _ rest h => decode_of_illegal h rest, fun s hr h hop => ?_, length_filter_illegalOpcode,
    illegalOpcode_iff_ranges⟩
  exact ⟨_, step_of_illegal hr h hop, faultedFrom_raise s _⟩
end

section
/-! PROOFS. Fetch and dispatch: what the step runs for each opcode byte, and its latches at the end of memory
(40_fetch_execute.md R73 to R78). -/

namespace Sys2Proof.Machine

variable {s : State}

/-! ### Dispatch -/

/-- A step runs the table's entry for the byte at `pc`, with the two latches (40_fetch_execute.md R76). -/
theorem step_of_lookup {i : Instr} (hr : s.run = .running) (h : s.pc.toNat < 256)
    (hl : lookup (s.memAt s.pc.toNat) (s.opFetch (s.pc + 1#9)) (s.opFetch (s.pc + 2#9)) = some i) :
    step s = exec i s := by
  have hf : s.fetch = .ok i := by rw [State.fetch, s.memRead_of_lt h, ok_bind, recognize_of_some hl]
  exact step_of_fetch_ok s hr hf

theorem step_of_ldi (hr : s.run = .running) (h : s.pc.toNat < 256) (hop : s.memAt s.pc.toNat = opLdi) :
    step s = exec (.ldi (s.opFetch (s.pc + 1#9)) (s.opFetch (s.pc + 2#9))) s :=
  step_of_lookup hr h (by rw [hop, lookup_ldi])

theorem step_of_prn (hr : s.run = .running) (h : s.pc.toNat < 256) (hop : s.memAt s.pc.toNat = opPrn) :
    step s = exec (.prn (s.opFetch (s.pc + 1#9))) s :=
  step_of_lookup hr h (by rw [hop, lookup_prn])

theorem step_of_mul (hr : s.run = .running) (h : s.pc.toNat < 256) (hop : s.memAt s.pc.toNat = opMul) :
    step s = exec (.mul (s.opFetch (s.pc + 1#9)) (s.opFetch (s.pc + 2#9))) s :=
  step_of_lookup hr h (by rw [hop, lookup_mul])

theorem step_of_hlt (hr : s.run = .running) (h : s.pc.toNat < 256) (hop : s.memAt s.pc.toNat = opHlt) :
    step s = exec .hlt s :=
  step_of_lookup hr h (by rw [hop, lookup_hlt])

/-! ### Operands past the last cell -/

/-- At 255 both operands lie past memory, and the first to be needed is at 256. -/
theorem step_operandA_past (hr : s.run = .running) (h : s.pc.toNat = 255)
    (hop : s.memAt s.pc.toNat = opLdi ∨ s.memAt s.pc.toNat = opPrn ∨ s.memAt s.pc.toNat = opMul) :
    step s = .next (s.raise ⟨.outOfRangeAddress, 256#9⟩) := by
  have ha : s.pc + 1#9 = 256#9 := by bv_omega
  have hp : s.pc.toNat < 256 := by omega
  refine step_of_firstFault hr ?_
  rcases hop with hop | hop | hop
  · rw [s.firstFault_of_ldi hp hop, if_pos (by omega), ha]
  · rw [s.firstFault_of_prn hp hop, if_pos (by omega), ha]
  · rw [s.firstFault_of_mul hp hop, if_pos (by omega), ha]

/-- At 254 only the second operand lies past memory, at 256. -/
theorem step_operandB_past (hr : s.run = .running) (h : s.pc.toNat = 254)
    (hop : s.memAt s.pc.toNat = opLdi ∨ s.memAt s.pc.toNat = opMul) :
    step s = .next (s.raise ⟨.outOfRangeAddress, 256#9⟩) := by
  have hb : s.pc + 2#9 = 256#9 := by bv_omega
  have hp : s.pc.toNat < 256 := by omega
  refine step_of_firstFault hr ?_
  rcases hop with hop | hop
  · rw [s.firstFault_of_ldi hp hop, if_neg (by omega), if_pos (by omega), hb]
  · rw [s.firstFault_of_mul hp hop, if_neg (by omega), if_pos (by omega), hb]

/-- PRN uses only its first operand: while that one is in memory, the step completes or faults on the register index. -/
theorem step_prn_operand_present (hr : s.run = .running) (h : s.pc.toNat < 255)
    (hop : s.memAt s.pc.toNat = opPrn) :
    ∃ t, step s = .next t ∧ (t.run = .running ∨ t.fault.cause = some .outOfRangeRegister) := by
  have h1 : (s.pc + 1#9).toNat < 256 := by bv_omega
  rw [step_of_prn hr (by omega) hop, s.opFetch_of_lt h1]
  rcases execPrn_cases s (some (s.memAt (s.pc + 1#9).toNat)) with ⟨i, -, he⟩ | ⟨hn, -⟩ | ⟨a, -, -, he⟩
  · exact ⟨_, he, .inl hr⟩
  · cases hn
  · exact ⟨_, he, .inr rfl⟩

/-! ### Register indices -/

/-- Below 8, the low three bits of a byte are the whole byte. -/
theorem toNat_extractLsb'_of_lt {v : Byte} (h : v.toNat < 8) : (v.extractLsb' 0 3).toNat = v.toNat := by
  rw [BitVec.extractLsb'_toNat, Nat.shiftRight_zero, Nat.mod_eq_of_lt h]

end Sys2Proof.Machine

open Sys2Proof.Machine

/-- Settles O8: one lemma for each entry of the table, and the raise for a byte that has none. -/
theorem dispatchByTheTable : Obligations.DispatchByTheTable := by
  unfold Obligations.DispatchByTheTable
  intro s hr h op a b
  refine ⟨step_of_ldi hr h, step_of_prn hr h, step_of_mul hr h, step_of_hlt hr h, fun h1 h2 h3 h4 => ?_⟩
  exact ⟨_, step_of_illegal hr h ⟨h1, h2, h3, h4⟩, faultedFrom_raise s _⟩

/-- Settles O9: each of the three run states is not RUNNING. -/
theorem noStepUnlessRunning : Obligations.NoStepUnlessRunning := by
  unfold Obligations.NoStepUnlessRunning
  rintro s (h | h | h) <;> exact step_of_not_running s (by simp [h])

/-- Settles O10: the opcode fetch past memory is the step's fault, and below 256 the fetch has its closed form. -/
theorem fetchReadsThreeBytes : Obligations.FetchReadsThreeBytes := by
  unfold Obligations.FetchReadsThreeBytes
  refine ⟨fun s hr h => ?_, fun s => s.fetch_of_lt⟩
  exact ⟨_, step_of_fetch_error s hr (s.fetch_of_ge h), faultedFrom_raise s _⟩

/-- Settles O12: the two cases of `need`, then the steps at 254 and 255 by which operands the opcode uses. -/
theorem operandPastMemoryFaultsWhenUsed : Obligations.OperandPastMemoryFaultsWhenUsed := by
  unfold Obligations.OperandPastMemoryFaultsWhenUsed
  refine ⟨need_some, need_none, fun s hr hp hop => ?_, fun s hr hp hop => ?_, fun s hr hp hop => ?_,
    fun s hr hp hop => ?_⟩
  · rcases hp with hp | hp
    · exact ⟨_, step_operandB_past hr hp hop, faultedFrom_raise s _⟩
    · exact ⟨_, step_operandA_past hr hp (hop.imp_right .inr), faultedFrom_raise s _⟩
  · exact ⟨_, step_operandA_past hr hp (.inr (.inl (hp ▸ hop))), faultedFrom_raise s _⟩
  · exact (step_of_hlt hr (by omega) (hp ▸ hop)).trans (execHlt_next s)
  · exact step_prn_operand_present hr (by omega) (hp ▸ hop)

/-- Settles O13: the two cases of `regidx`; below 8 masking to three bits changes nothing. -/
theorem registerIndexIsTheWholeByte : Obligations.RegisterIndexIsTheWholeByte := by
  unfold Obligations.RegisterIndexIsTheWholeByte
  exact ⟨fun v h => ⟨⟨v.toNat, h⟩, regidx_of_lt h, (toNat_extractLsb'_of_lt h).symm, rfl⟩, fun _ => regidx_of_ge⟩
end

section
/-! PROOFS. A step that completes: the instruction that it ran, all of its effects together, and where the next
instruction is (40_fetch_execute.md R81, R82). -/

namespace Sys2Proof.Machine

/-- The completed effect of an instruction that has its operands and names registers (40_fetch_execute.md R81). -/
inductive Completed (s : State) : Instr → State → Prop where
  | ldi (r : Fin 8) (v : Byte) :
      Completed s (.ldi (some (BitVec.ofNat 8 r.val)) (some v)) ((s.setReg r v).advance 3#9)
  | prn (r : Fin 8) :
      Completed s (.prn (some (BitVec.ofNat 8 r.val))) ((s.emit (s.reg r)).advance 2#9)
  | mul (r q : Fin 8) :
      Completed s (.mul (some (BitVec.ofNat 8 r.val)) (some (BitVec.ofNat 8 q.val)))
        ((s.setReg r (BitVec.ofNat 8 ((s.reg r).toNat * (s.reg q).toNat))).advance 3#9)

theorem toNat_regByte (i : Fin 8) : (BitVec.ofNat 8 i.val).toNat = i.val := by
  simp only [BitVec.toNat_ofNat]; omega

variable {s t : State}

/-! ### The fetch of an instruction that lies in memory with its operands -/

theorem State.fetch_of_ldi (h : s.pc.toNat < 254) (hop : s.memAt s.pc.toNat = opLdi) :
    s.fetch = .ok (.ldi (some (s.memAt (s.pc.toNat + 1))) (some (s.memAt (s.pc.toNat + 2)))) := by
  rw [s.fetch_of_lt (by omega), hop, recognize_of_some (lookup_ldi _ _), if_pos (by omega), if_pos (by omega)]

theorem State.fetch_of_prn (h : s.pc.toNat < 255) (hop : s.memAt s.pc.toNat = opPrn) :
    s.fetch = .ok (.prn (some (s.memAt (s.pc.toNat + 1)))) := by
  rw [s.fetch_of_lt (by omega), hop, recognize_of_some (lookup_prn _ _), if_pos (by omega)]

theorem State.fetch_of_mul (h : s.pc.toNat < 254) (hop : s.memAt s.pc.toNat = opMul) :
    s.fetch = .ok (.mul (some (s.memAt (s.pc.toNat + 1))) (some (s.memAt (s.pc.toNat + 2)))) := by
  rw [s.fetch_of_lt (by omega), hop, recognize_of_some (lookup_mul _ _), if_pos (by omega), if_pos (by omega)]

theorem State.pc_lt_of_fetch_ok {i : Instr} (hf : s.fetch = .ok i) : s.pc.toNat < 256 := by
  by_contra h
  simp [s.fetch_of_ge (Nat.le_of_not_lt h)] at hf

/-! ### The three ways in which a step ends -/

/-- A step of a RUNNING core completes the instruction that it fetched, or halts, or raises. -/
theorem StepShape.completed_or_halt_or_raise (h : StepShape s t) :
    (∃ i, s.fetch = .ok i ∧ Completed s i t) ∨ t = s.halt ∨ ∃ e, t = s.raise e := by
  cases h with
  | fetchPast | illegal | operandA | operandB | indexA | indexB => exact .inr (.inr ⟨_, rfl⟩)
  | halt => exact .inr (.inl rfl)
  | ldi h hop r ha => exact .inl ⟨_, State.fetch_of_ldi h hop, ha ▸ .ldi r _⟩
  | prn h hop r ha => exact .inl ⟨_, State.fetch_of_prn h hop, ha ▸ .prn r⟩
  | mul h hop r q ha hb => exact .inl ⟨_, State.fetch_of_mul h hop, ha ▸ hb ▸ .mul r q⟩

/-- A step that leaves the core RUNNING has completed. -/
theorem completed_of_step_running (hr : s.run = .running) (h : step s = .next t) (ht : t.run = .running) :
    ∃ i, s.fetch = .ok i ∧ Completed s i t := by
  rcases (step_shape s hr h).completed_or_halt_or_raise with hc | rfl | ⟨e, rfl⟩
  · exact hc
  · cases ht
  · cases ht

/-! ### What a completed instruction leaves -/

variable {i : Instr}

theorem Completed.frame (h : Completed s i t) : t.run = s.run ∧ t.fault = s.fault ∧ t.mem = s.mem := by
  cases h <;> exact ⟨rfl, rfl, rfl⟩

/-- `pc` goes on by the length, without wrap from an address that exists (40_fetch_execute.md R82). -/
theorem Completed.pc_toNat (h : Completed s i t) (hp : s.pc.toNat < 256) :
    t.pc.toNat = s.pc.toNat + i.length := by
  cases h with
  | ldi | mul => exact Addr.toNat_add_small (p := s.pc) (n := 3) (by omega) (by omega)
  | prn => exact Addr.toNat_add_small (p := s.pc) (n := 2) (by omega) (by omega)

end Sys2Proof.Machine

open Sys2Proof.Machine

/-- Settles O14: the three ends of a step; a completed step ran `exec` of the fetched instruction, whose whole effect
`Completed` says. -/
theorem stepIsAtomic : Obligations.StepIsAtomic := by
  unfold Obligations.StepIsAtomic
  intro s hr
  obtain ⟨t, ht, hs⟩ := step_cases s hr
  refine ⟨t, ht, ?_⟩
  rcases hs.completed_or_halt_or_raise with ⟨i, hf, hc⟩ | rfl | ⟨e, rfl⟩
  · obtain ⟨hrun, hfault, hmem⟩ := hc.frame
    have hexec : exec i s = .next t := (step_of_fetch_ok s hr hf).symm.trans ht
    refine .inl ⟨hrun.trans hr, hfault, hmem, i, hf, hexec, ?_⟩
    cases hc with
    | ldi r v => exact .inl ⟨_, v, r, rfl, toNat_regByte r, rfl⟩
    | prn r => exact .inr (.inl ⟨_, r, rfl, toNat_regByte r, rfl⟩)
    | mul r q => exact .inr (.inr ⟨_, _, r, q, _, rfl, toNat_regByte r, toNat_regByte q, alu_mul _ _, rfl⟩)
  · exact .inr (.inl rfl)
  · exact .inr (.inr ⟨e.fault, e.value, faultedFrom_raise s e⟩)

/-- Settles O15: a step that leaves the core RUNNING has completed, and `pc` goes on by the instruction's length. -/
theorem controlFlowIsSequential : Obligations.ControlFlowIsSequential := by
  unfold Obligations.ControlFlowIsSequential
  intro s t hr hst ht
  obtain ⟨i, hf, hc⟩ := completed_of_step_running hr hst ht
  refine ⟨i, hf, hc.pc_toNat (State.pc_lt_of_fetch_ok hf), ?_⟩
  cases hc with
  | ldi r v => exact .inl ⟨_, _, rfl, rfl⟩
  | prn r => exact .inr (.inl ⟨_, rfl, rfl⟩)
  | mul r q => exact .inr (.inr ⟨_, _, rfl, rfl⟩)
end

section
/-! PROOFS. LDI and PRN that complete: the state that the step answers, read from the bytes at `pc`, and the line that
the host prints for PRN (41_ldi_prn.md R87, R90). -/

namespace Sys2Proof.Machine

variable {s : State} {p : Nat} {r : Fin 8}

/-- LDI whose first operand names a register loads the byte after it, in one step (41_ldi_prn.md R85). -/
theorem step_ldi_of_register (hr : s.run = .running) (hp : s.pc.toNat = p) (h : p < 254)
    (hop : s.memAt p = opLdi) (ha : s.memAt (p + 1) = BitVec.ofNat 8 r.val) :
    step s = .next ((s.setReg r (s.memAt (p + 2))).advance 3#9) := by
  subst hp
  rw [step_of_fetch_ok s hr (State.fetch_of_ldi h hop), ha]
  simp [exec, execLdi]

/-- PRN whose operand names a register emits that register's value, in one step (41_ldi_prn.md R88). -/
theorem step_prn_of_register (hr : s.run = .running) (hp : s.pc.toNat = p) (h : p < 255)
    (hop : s.memAt p = opPrn) (ha : s.memAt (p + 1) = BitVec.ofNat 8 r.val) :
    step s = .next ((s.emit (s.reg r)).advance 2#9) := by
  subst hp
  rw [step_of_fetch_ok s hr (State.fetch_of_prn h hop), ha]
  simp [exec, execPrn]

/-- One more event is printed as one more line, its decimal text (60_exceptions.md R117). -/
theorem printed_append_singleton (out : List Byte) (v : Byte) :
    printed (out ++ [v]) = printed out ++ decimal v ++ ['\n'] := by
  simp [printed, eventText]

end Sys2Proof.Machine

open Sys2Proof.Machine

/-- Settles O23: the state that LDI's step answers, at any `pc` up to 253 and at 0. -/
theorem ldiLoadsTheImmediate : Obligations.LdiLoadsTheImmediate := by
  unfold Obligations.LdiLoadsTheImmediate
  refine ⟨fun s r v hr hp hop ha hv => ?_, fun s hr hpc hop ha hv => ?_⟩
  · refine ⟨_, step_ldi_of_register hr rfl (by omega) hop ha, hr, ?_, ?_, fun j hj => ?_, rfl⟩
    · rw [State.advance_reg, State.reg_setReg_self, hv]
    · exact Addr.toNat_add_small (p := s.pc) (n := 3) (by omega) (by omega)
    · exact s.reg_setReg_ne r j _ hj
  · have hp : s.pc.toNat = 0 := by rw [hpc]; rfl
    refine ⟨_, step_ldi_of_register (r := 0) hr hp (by omega) hop ha, ?_, ?_⟩
    · rw [State.advance_reg, State.reg_setReg_self, hv]
    · rw [State.advance_pc, State.setReg_pc, hpc]; rfl

/-- Settles O24: the state that PRN's step answers, at any `pc` up to 254 and at 9, and the line printed for its one
event. -/
theorem prnPrintsOneLine : Obligations.PrnPrintsOneLine := by
  unfold Obligations.PrnPrintsOneLine
  refine ⟨fun s r hr hp hop ha => ?_, fun s hr hpc hx hop ha => ?_⟩
  · refine ⟨_, step_prn_of_register hr rfl (by omega) hop ha, hr, rfl, ?_, ?_, fun j => rfl⟩
    · exact printed_append_singleton s.out (s.reg r)
    · exact Addr.toNat_add_small (p := s.pc) (n := 2) (by omega) (by omega)
  · have hp : s.pc.toNat = 9 := by rw [hpc]; rfl
    have hdec : decimal 72#8 = ['7', '2'] := by decide
    refine ⟨_, step_prn_of_register (r := 0) hr hp (by omega) hop ha, ?_, ?_, ?_⟩
    · rw [State.advance_out, State.emit_out, hx]
    · rw [State.advance_out, State.emit_out, hx, printed_append_singleton, hdec, List.append_assoc]; rfl
    · rw [State.advance_pc, State.emit_pc, hpc]; rfl
end

section
/-! PROOFS. The ALU and MUL: what each operation code answers, the step of a MUL that completes, and why no step records
UnsupportedAluOperation (42_alu_mul.md R91, R94, R98). -/

namespace Sys2Proof.Machine

/-! ### An operation code that is neither ADD nor MUL -/

theorem alu_of_unsupported {op : BitVec 2} (hadd : op ≠ aluAdd) (hmul : op ≠ aluMul) (a b : Byte) :
    alu op a b = none := by
  simp [alu, hadd, hmul]

theorem aluApply_of_unsupported {op : BitVec 2} (hadd : op ≠ aluAdd) (hmul : op ≠ aluMul) (a b : Byte) :
    aluApply op a b = .error ⟨.unsupportedAluOperation, op.setWidth 9⟩ := by
  simp [aluApply, alu_of_unsupported hadd hmul]

variable {s t : State}

/-! ### The faults that a step records -/

/-- A step keeps the fault record, or raises a fault other than UnsupportedAluOperation: the ALU is given `aluMul`
alone (42_alu_mul.md R94; 60_exceptions.md R109). -/
theorem StepShape.keeps_fault_or_raises (h : StepShape s t) :
    t.fault = s.fault ∨ ∃ e, t = s.raise e ∧ e.fault ≠ .unsupportedAluOperation := by
  cases h with
  | fetchPast | illegal | operandA | operandB | indexA | indexB => exact .inr ⟨_, rfl, CoreFault.noConfusion⟩
  | halt | ldi | prn | mul => exact .inl rfl

/-- The cause that a step leaves is UnsupportedAluOperation only where it stood before. -/
theorem step_cause_ne_unsupported (h : step s = .next t) (hs : s.fault.cause ≠ some .unsupportedAluOperation) :
    t.fault.cause ≠ some .unsupportedAluOperation := by
  by_cases hr : s.run = .running
  · rcases (step_shape s hr h).keeps_fault_or_raises with hkept | ⟨e, rfl, he⟩
    · rwa [hkept]
    · rw [State.raise_fault]
      exact fun hc => he (Option.some.inj hc)
  · obtain rfl : s = t := Host.Outcome.next.inj ((step_of_not_running s hr).symm.trans h)
    exact hs

/-! ### MUL that completes -/

/-- MUL whose operands name registers writes the low byte of the product of their values, in one step
(42_alu_mul.md R96, R98). -/
theorem step_mul_of_registers {p : Nat} {r q : Fin 8} (hr : s.run = .running) (hp : s.pc.toNat = p) (h : p < 254)
    (hop : s.memAt p = opMul) (ha : s.memAt (p + 1) = BitVec.ofNat 8 r.val)
    (hb : s.memAt (p + 2) = BitVec.ofNat 8 q.val) :
    step s = .next ((s.setReg r (BitVec.ofNat 8 ((s.reg r).toNat * (s.reg q).toNat))).advance 3#9) := by
  subst hp
  rw [step_of_fetch_ok s hr (State.fetch_of_mul h hop), ha, hb]
  simp [exec, execMul]

end Sys2Proof.Machine

open Sys2Proof.Machine

/-- Settles O27: the results of ADD and MUL by the lemma on each code, and the two codes that are neither. -/
theorem aluOperationTable : Obligations.AluOperationTable := by
  unfold Obligations.AluOperationTable
  intro a b
  refine ⟨⟨_, alu_add a b, ?_⟩, ⟨_, alu_mul a b, ?_⟩, ?_, ?_⟩
  · exact BitVec.toNat_ofNat _ 8
  · exact BitVec.toNat_ofNat _ 8
  · exact alu_of_unsupported (by decide) (by decide) a b
  · exact alu_of_unsupported (by decide) (by decide) a b

/-- Settles O25: the state that MUL's step answers, at any `pc` up to 253 and at 6. -/
theorem mulWritesTheProduct : Obligations.MulWritesTheProduct := by
  unfold Obligations.MulWritesTheProduct
  refine ⟨fun s r q hr hp hop ha hb => ?_, fun s hr hpc hx hy hop ha hb => ?_⟩
  · refine ⟨_, step_mul_of_registers hr rfl (by omega) hop ha hb, hr, ?_, ?_, fun j hj => ?_, rfl⟩
    · rw [State.advance_reg, State.reg_setReg_self]; exact BitVec.toNat_ofNat _ 8
    · exact Addr.toNat_add_small (p := s.pc) (n := 3) (by omega) (by omega)
    · exact s.reg_setReg_ne r j _ hj
  · have hp : s.pc.toNat = 6 := by rw [hpc]; rfl
    refine ⟨_, step_mul_of_registers (r := 0) (q := 1) hr hp (by omega) hop ha hb, ?_, ?_, ?_⟩
    · rw [State.advance_reg, State.reg_setReg_self, hx, hy]; rfl
    · rw [State.advance_reg, s.reg_setReg_ne 0 1 _ (by decide), hy]
    · rw [State.advance_pc, State.setReg_pc, hpc]; rfl

/-- Settles O28: a step that is given an unsupported code raises before it writes, and no step is given one. -/
theorem unsupportedOperationRaises : Obligations.UnsupportedOperationRaises := by
  unfold Obligations.UnsupportedOperationRaises
  refine ⟨fun op a b hadd hmul => ⟨alu_of_unsupported hadd hmul a b, fun s k => ?_⟩,
    fun s t => step_cause_ne_unsupported⟩
  rw [aluApply_of_unsupported hadd hmul, error_bind, State.settle_error]
  exact ⟨_, rfl, faultedFrom_raise s _⟩
end

section
/-! PROOFS. Raising a fault, the register operands that raise one, and the spec's order of faults (60_exceptions.md R105,
R106, R108). -/

namespace Sys2Proof.Machine

variable (s : State) {a b : Byte}

/-! ### Register operands of 8 or more -/

theorem execLdi_register_out_of_range (v : Byte) (ha : 8 ≤ a.toNat) :
    execLdi (some a) (some v) s = .next (s.raise ⟨.outOfRangeRegister, a.setWidth 9⟩) := by
  simp [execLdi, regidx_of_ge ha]

theorem execPrn_register_out_of_range (ha : 8 ≤ a.toNat) :
    execPrn (some a) s = .next (s.raise ⟨.outOfRangeRegister, a.setWidth 9⟩) := by
  simp [execPrn, regidx_of_ge ha]

theorem execMul_first_register_out_of_range (b : Byte) (ha : 8 ≤ a.toNat) :
    execMul (some a) (some b) s = .next (s.raise ⟨.outOfRangeRegister, a.setWidth 9⟩) := by
  simp [execMul, regidx_of_ge ha]

/-- MUL's second operand is looked at only once its first names a register. -/
theorem execMul_second_register_out_of_range (ha : a.toNat < 8) (hb : 8 ≤ b.toNat) :
    execMul (some a) (some b) s = .next (s.raise ⟨.outOfRangeRegister, b.setWidth 9⟩) := by
  simp [execMul, regidx_of_lt ha, regidx_of_ge hb]

/-! ### No fault of the list -/

variable {s}

/-- A step of a RUNNING core to which no fault of the list applies completes or halts, and records nothing. -/
theorem step_of_firstFault_none (hr : s.run = .running) (hn : s.firstFault = none) :
    ∃ t, step s = .next t ∧ (t.run = .running ∨ t.run = .halted) ∧ t.fault = s.fault := by
  obtain ⟨t, ht, hs⟩ := step_cases s hr
  refine ⟨t, ht, ?_⟩
  rcases hs.firstFault_cases with ⟨e, he, -⟩ | ⟨-, -, rfl⟩ | ⟨-, hrun, hfault⟩
  · simp [hn] at he
  · exact ⟨.inr s.halt_run, s.halt_fault⟩
  · exact ⟨.inl (hrun.trans hr), hfault⟩

end Sys2Proof.Machine

open Sys2Proof.Machine

/-- Settles O30: a step that ends in an error answers the raised state, whose fields are those of `faultedFrom_raise`. -/
theorem raiseWritesOnlyTheRecord : Obligations.RaiseWritesOnlyTheRecord := by
  unfold Obligations.RaiseWritesOnlyTheRecord
  exact fun s e => ⟨s.settle_error e, faultedFrom_raise s e, rfl⟩

/-- Settles O22: one lemma for each handler and operand. -/
theorem registerOperandTraps : Obligations.RegisterOperandTraps := by
  unfold Obligations.RegisterOperandTraps
  refine fun s a b => ⟨fun ha => ⟨?_, ?_, ?_⟩, fun ha hb => ?_⟩
  · exact ⟨_, execLdi_register_out_of_range s b ha, faultedFrom_raise s _⟩
  · exact ⟨_, execPrn_register_out_of_range s ha, faultedFrom_raise s _⟩
  · exact ⟨_, execMul_first_register_out_of_range s b ha, faultedFrom_raise s _⟩
  · exact ⟨_, execMul_second_register_out_of_range s ha hb, faultedFrom_raise s _⟩

/-- Settles O31: a step raises the first fault of the list, and where the list has none it completes or halts. -/
theorem firstFaultIsTaken : Obligations.FirstFaultIsTaken := by
  unfold Obligations.FirstFaultIsTaken
  exact fun s hr => ⟨fun e he => ⟨_, step_of_firstFault hr he, faultedFrom_raise s e⟩, step_of_firstFault_none hr⟩
end

section
/-! PROOFS. The session: what a load from IDLE leaves, how a run ends, and the outcome that the host reports
(60_exceptions.md R104, R116, R118). -/

namespace Sys2Proof.Machine

/-! ### How the host classifies a core -/

section
variable (s : State)

theorem classify_of_halted (h : s.run = .halted) : classify s = some .halted := by simp [classify, h]

theorem classify_of_running (h : s.run = .running) : classify s = some .budgetExceeded := by simp [classify, h]

theorem classify_raise (e : Raised) : classify (s.raise e) = some (.fault e.fault) := rfl

theorem classify_eq_halted_iff : classify s = some .halted ↔ s.run = .halted := by
  cases h : s.run <;> simp [classify, h]

theorem classify_eq_budgetExceeded_iff : classify s = some .budgetExceeded ↔ s.run = .running := by
  cases h : s.run <;> simp [classify, h]

theorem classify_eq_fault_iff (f : CoreFault) :
    classify s = some (.fault f) ↔ s.run = .faulted ∧ s.fault.cause = some f := by
  cases h : s.run <;> simp [classify, h]

theorem classify_ne_loadFailed (r : Fault) : classify s ≠ some (.loadFailed r) := by
  cases h : s.run <;> simp [classify, h]

/-- The status code of a fault tells its cause: the codes are distinct, and none is 0 (60_exceptions.md R103). -/
theorem State.faultCauseCode_eq_code_iff (f : CoreFault) : s.faultCauseCode = f.code ↔ s.fault.cause = some f := by
  cases h : s.fault.cause with
  | none => cases f <;> simp [State.faultCauseCode, h, CoreFault.code]
  | some g => cases f <;> cases g <;> simp [State.faultCauseCode, h, CoreFault.code]

end

variable {s t : State}

/-! ### The end of a run -/

/-- A step of a RUNNING core leaves one that the host can classify. -/
theorem classify_of_step (hr : s.run = .running) (h : step s = .next t) : ∃ o, classify t = some o := by
  rcases step_run_cases h with hrun | ⟨-, -, rfl⟩ | ⟨-, e, rfl⟩
  · exact ⟨_, classify_of_running t (hrun.trans hr)⟩
  · exact ⟨_, classify_of_halted s.halt s.halt_run⟩
  · exact ⟨_, classify_raise s e⟩

/-- A run that begins in a core that the host can classify ends in one. -/
theorem classify_hostRun : ∀ (k : Nat) {s : State}, (∃ o, classify s = some o) → ∃ o, classify (hostRun k s) = some o
  | 0, _, hs => hs
  | k + 1, s, hs => by
    by_cases hr : s.run = .running
    · obtain ⟨t, ht⟩ := step_next s
      rw [hostRun_succ s k hr ht]
      exact classify_hostRun k (classify_of_step hr ht)
    · rwa [hostRun_of_not_running s hr]

/-- A step that raises ends the run, whatever the rest of the budget. -/
theorem hostRun_of_step_raise {e : Raised} {k : Nat} (hr : s.run = .running) (h : step s = .next (s.raise e))
    (hk : 1 ≤ k) : hostRun k s = s.raise e := by
  obtain ⟨n, rfl⟩ := Nat.exists_eq_add_of_le' hk
  rw [hostRun_succ s n hr h, hostRun_of_not_running _ (by rw [State.raise_run]; decide)]

/-! ### The load -/

/-- A load from IDLE succeeds or fails, and either way it changes nothing but memory (60_exceptions.md R116). -/
theorem hostLoad_idle_cases (file : Option (List Char)) (hr : s.run = .idle) :
    ∃ m, hostLoad file s = .loaded { s with mem := m } ∨ ∃ r, hostLoad file s = .failed r { s with mem := m } := by
  cases file with
  | none => exact ⟨s.mem, .inr ⟨_, hostLoad_none s hr⟩⟩
  | some text =>
    cases himg : parseImage text with
    | none => exact ⟨Memory.afterMalformed text, .inr ⟨_, hostLoad_malformed s hr himg⟩⟩
    | some img =>
      refine ⟨Memory.place s.mem 0 img, ?_⟩
      rw [hostLoad_image s hr himg, loadImage_idle s img hr]
      by_cases hlen : img.length ≤ 256
      · exact .inl (if_pos hlen)
      · exact .inr ⟨_, if_neg hlen⟩

/-! ### The session -/

section
variable {file : Option (List Char)} {budget : Nat} (s : State)

/-- A session is what the host makes of the file's load into the core after reset. -/
theorem session_eq_afterLoad :
    session file budget s = afterLoad budget State.reset (hostLoad file State.reset) := rfl

theorem session_of_loaded (h : hostLoad file State.reset = .loaded t) :
    session file budget s = ⟨classify (hostRun budget t.start), hostRun budget t.start⟩ := by
  rw [session_eq_afterLoad, h, afterLoad]

theorem session_of_failed {r : Fault} (h : hostLoad file State.reset = .failed r t) :
    session file budget s = ⟨some (.loadFailed r), t⟩ := by
  rw [session_eq_afterLoad, h, afterLoad]

/-- Reset makes every load one from IDLE, and what was loaded is started, so each session has an outcome. -/
theorem session_outcome_exists : ∃ o, (session file budget s).outcome = some o := by
  obtain ⟨m, hl | ⟨r, hf⟩⟩ := hostLoad_idle_cases file (s := State.reset) rfl
  · rw [session_of_loaded s hl]
    exact classify_hostRun budget ⟨_, classify_of_running _ rfl⟩
  · exact ⟨_, by rw [session_of_failed s hf]⟩

/-- The session reports a load error exactly when the load gave it: no run is classified as one. -/
theorem session_loadFailed_iff (r : Fault) :
    (session file budget s).outcome = some (.loadFailed r) ↔ ∃ t, hostLoad file State.reset = .failed r t := by
  obtain ⟨m, hl | ⟨r', hf⟩⟩ := hostLoad_idle_cases file (s := State.reset) rfl
  · simp [session_of_loaded s hl, hl, classify_ne_loadFailed]
  · simp [session_of_failed s hf, hf]

/-- A session whose load failed leaves the core as after reset, but for memory (60_exceptions.md R116). -/
theorem session_final_of_loadFailed {r : Fault} (h : (session file budget s).outcome = some (.loadFailed r)) :
    ∃ m, (session file budget s).final = { State.reset with mem := m } := by
  obtain ⟨m, hl | ⟨r', hf⟩⟩ := hostLoad_idle_cases file (s := State.reset) rfl
  · rw [session_of_loaded s hl] at h
    exact absurd h (classify_ne_loadFailed _ r)
  · exact ⟨m, by rw [session_of_failed s hf]⟩

end

/-! ### A program without bytes -/

/-- The first byte of a memory that is all zero is no opcode (60_exceptions.md R104). -/
theorem step_launch_nil : step (launch []) = .next ((launch []).raise ⟨.unrecognizedOpcode, 0#9⟩) :=
  step_of_illegal rfl (by decide) (by decide)

theorem session_of_empty_image {text : List Char} {budget : Nat} (himg : parseImage text = some [])
    (hb : 1 ≤ budget) (s : State) :
    session (some text) budget s =
      ⟨some (.fault .unrecognizedOpcode), (launch []).raise ⟨.unrecognizedOpcode, 0#9⟩⟩ := by
  have hl : hostLoad (some text) State.reset = .loaded State.reset := hostLoad_image State.reset rfl himg
  have hs : State.reset.start = launch [] := rfl
  rw [session_of_loaded s hl, hs, hostRun_of_step_raise rfl step_launch_nil hb, classify_raise]

end Sys2Proof.Machine

open Sys2Proof.Machine

/-- Settles O46: the outcome exists by `session_outcome_exists`, each class is read from `classify`, and the host's
values are injective. -/
theorem everyRunIsClassified : Obligations.EveryRunIsClassified := by
  unfold Obligations.EveryRunIsClassified
  refine ⟨fun _ _ s => session_outcome_exists s, fun s => ⟨classify_eq_halted_iff s, fun f => ?_,
    classify_eq_budgetExceeded_iff s⟩, fun _ _ s r => session_loadFailed_iff s r, fun c o o' hne => ?_⟩
  · rw [classify_eq_fault_iff, State.faultCauseCode_eq_code_iff]
  · exact ⟨c.exitCode_injective.ne hne, c.message_injective.ne hne⟩

/-- Settles O32: the table has no entry for an illegal opcode, whatever the latches; a file without bytes leaves memory
all zero, and 0 is such an opcode. -/
theorem emptyProgramFaults : Obligations.EmptyProgramFaults := by
  unfold Obligations.EmptyProgramFaults
  refine ⟨fun s op a b hop => ⟨recognize_of_none (lookup_of_illegal hop a b), ?_⟩, fun text budget s himg hb => ?_⟩
  · rintro hr hp rfl
    exact ⟨_, step_of_illegal hr hp hop, State.raise_fault s _⟩
  · rw [session_of_empty_image himg hb s]
    exact ⟨rfl, faultedFrom_raise _ _, fun k => rfl⟩
end

section
/-! PROOFS. Malformed program files, and the three ways in which a load fails (60_exceptions.md R116). -/

namespace Sys2Proof.Machine

/-! ### Lines -/

theorem dropWhile_isBlank_of_no_blank {l : List Char} (h : ∀ c ∈ l, isBlank c = false) :
    l.dropWhile isBlank = l :=
  List.dropWhile_eq_self_iff.mpr fun hl => by simp [h _ (List.getElem_mem hl)]

theorem trim_of_no_blank {l : List Char} (h : ∀ c ∈ l, isBlank c = false) : trim l = l := by
  have hrev : ∀ c ∈ l.reverse, isBlank c = false := fun c hc => h c (List.mem_reverse.mp hc)
  rw [trim, dropWhile_isBlank_of_no_blank h, dropWhile_isBlank_of_no_blank hrev, List.reverse_reverse]

/-- A comment is no part of what its line holds (30_encoding.md R71). -/
theorem parseLine_append_comment {l : List Char} (h : '#' ∉ l) (comment : List Char) :
    parseLine (l ++ '#' :: comment) = parseLine l := by
  have hl : ∀ c ∈ l, (c != '#') = true := fun c hc => bne_iff_ne.mpr fun heq => h (heq ▸ hc)
  have htake : (l ++ '#' :: comment).takeWhile (fun c => c != '#') = l.takeWhile (fun c => c != '#') := by
    rw [List.takeWhile_append_of_pos hl, List.takeWhile_cons_of_neg (by decide), List.append_nil,
      List.takeWhile_eq_self_iff.mpr hl]
  simp only [parseLine, htake]

/-- A line without blanks and comments is malformed if it has a character that is no binary digit, or more than 8
characters (60_exceptions.md R116). -/
theorem parseLine_malformed_of_plain {ds : List Char} (hplain : ∀ c ∈ ds, isBlank c = false ∧ c ≠ '#')
    (hbad : (∃ c ∈ ds, c ≠ '0' ∧ c ≠ '1') ∨ 8 < ds.length) : parseLine ds = .malformed := by
  have hne : ds ≠ [] := by
    rintro rfl
    simp at hbad
  have htake : ds.takeWhile (fun c => c != '#') = ds :=
    List.takeWhile_eq_self_iff.mpr fun c hc => by simp [(hplain c hc).2]
  have htrim : trim ds = ds := trim_of_no_blank fun c hc => (hplain c hc).1
  have hliteral : (ds.all (fun c => c == '0' || c == '1') && decide (ds.length ≤ 8)) = false := by
    rcases hbad with ⟨c, hc, h0, h1⟩ | hlen
    · have hall : ds.all (fun c => c == '0' || c == '1') = false :=
        List.all_eq_false.mpr ⟨c, hc, by simp [h0, h1]⟩
      rw [hall, Bool.false_and]
    · simp [Nat.not_le.mpr hlen]
  simp [parseLine, htake, htrim, hliteral, hne]

theorem plain_of_binary {c : Char} (h : c = '0' ∨ c = '1') : isBlank c = false ∧ c ≠ '#' := by
  rcases h with rfl | rfl <;> decide

/-- One malformed line makes the whole file malformed. -/
theorem parseLines_of_mem_malformed {l : List Char} (h : parseLine l = .malformed) :
    ∀ {ls : List (List Char)}, l ∈ ls → parseLines ls = none
  | l' :: ls, hmem => by
    rcases List.mem_cons.mp hmem with rfl | hmem
    · exact parseLines_malformed ls h
    · have ih : parseLines ls = none := parseLines_of_mem_malformed h hmem
      cases hl : parseLine l' with
      | skip => rw [parseLines_skip ls hl, ih]
      | byte v => rw [parseLines_byte ls hl, ih, Option.map_none]
      | malformed => exact parseLines_malformed ls hl

/-! ### Too long an image -/

/-- The first write past memory is at address 256, and it is refused. -/
theorem loadFrom_refused_of_too_long {s : State} {img : List Byte} (hr : s.run = .idle) (h : 256 < img.length) :
    (loadFrom 0 img s).2 = some (.writeOutOfRange 256#9) := by
  rw [loadFrom_too_long img 0 s hr (by omega) (by omega)]

end Sys2Proof.Machine

open Sys2Proof.Machine

/-- Settles O43: the load's three failures, the lines that are malformed, and the state that a session leaves whose
load failed: that of reset, but for memory. -/
theorem failedLoadLeavesTheCoreIdle : Obligations.FailedLoadLeavesTheCoreIdle := by
  unfold Obligations.FailedLoadLeavesTheCoreIdle
  refine ⟨hostLoad_none, fun budget s => ?_, fun text s hr himg _ => ⟨_, hostLoad_malformed s hr himg⟩,
    fun ls ⟨l, hl, hbad⟩ => parseLines_of_mem_malformed hbad hl, fun ds hplain hbad => ?_, fun ds hlen hds => ?_,
    fun l comment hl hbad => ?_, fun text img s hr himg hlen => ⟨?_, loadFrom_refused_of_too_long hr hlen⟩,
    fun file budget s r h => ?_⟩
  · rw [session_of_failed s (hostLoad_none State.reset rfl)]
    exact ⟨rfl, rfl⟩
  · exact parseLine_malformed_of_plain hplain (.inl hbad)
  · exact parseLine_malformed_of_plain (fun c hc => plain_of_binary (hds c hc)) (.inr hlen)
  · rw [parseLine_append_comment hl, hbad]
  · rw [hostLoad_image s hr himg, loadImage_idle s img hr, if_neg (by omega)]
    exact ⟨_, rfl⟩
  · obtain ⟨m, hm⟩ := session_final_of_loadFailed s h
    rw [hm]
    exact ⟨rfl, rfl, rfl, fun j => by simp [State.reg, State.reset]⟩
end

section
/-! PROOFS. The printed text: a byte's decimal digits, one digit at a time (60_exceptions.md R117). -/

namespace Sys2Proof.Machine

/-! ### Digits -/

theorem toNat_digit {n : Nat} (h : n < 10) : (digit n).toNat = 48 + n := by
  have hvalid : (48 + n).isValidChar := .inl (by omega)
  rw [digit, Char.toNat_ofNat, if_pos hvalid]

theorem isDigit_digit {n : Nat} (h : n < 10) : (digit n).isDigit = true := by
  rw [Char.isDigit_iff_toNat, toNat_digit h, show '0'.toNat = 48 from rfl, show '9'.toNat = 57 from rfl]
  omega

/-- Only 0 has the digit `0`. -/
theorem digit_eq_zero_iff {n : Nat} (h : n < 10) : digit n = '0' ↔ n = 0 := by
  rw [← Char.toNat_inj, toNat_digit h, show '0'.toNat = 48 from rfl]
  omega

/-! ### The decimal text -/

/-- The text of a byte: one digit, or two or three of which the first is not 0. -/
theorem decimal_cases (v : Byte) :
    (∃ a, a < 10 ∧ v.toNat = a ∧ decimal v = [digit a]) ∨
    (∃ a b, 0 < a ∧ a < 10 ∧ b < 10 ∧ v.toNat = 10 * a + b ∧ decimal v = [digit a, digit b]) ∨
    (∃ a b c, 0 < a ∧ a < 10 ∧ b < 10 ∧ c < 10 ∧ v.toNat = 10 * (10 * a + b) + c ∧
      decimal v = [digit a, digit b, digit c]) := by
  by_cases h1 : v.toNat < 10
  · exact .inl ⟨_, h1, rfl, by simp only [decimal, if_pos h1]⟩
  · by_cases h2 : v.toNat < 100
    · refine .inr (.inl ⟨v.toNat / 10, v.toNat % 10, ?_, ?_, ?_, ?_, by simp only [decimal, if_neg h1, if_pos h2]⟩) <;>
        omega
    · refine .inr (.inr ⟨v.toNat / 100, v.toNat / 10 % 10, v.toNat % 10, ?_, ?_, ?_, ?_, ?_,
        by simp only [decimal, if_neg h1, if_neg h2]⟩) <;> omega

theorem decimal_ne_nil (v : Byte) : decimal v ≠ [] := by
  rcases decimal_cases v with ⟨a, -, -, hd⟩ | ⟨a, b, -, -, -, -, hd⟩ | ⟨a, b, c, -, -, -, -, -, hd⟩ <;> simp [hd]

theorem decimal_all_isDigit (v : Byte) : (decimal v).all Char.isDigit = true := by
  rcases decimal_cases v with ⟨a, ha, -, hd⟩ | ⟨a, b, -, ha, hb, -, hd⟩ | ⟨a, b, c, -, ha, hb, hc, -, hd⟩
  · simp [hd, isDigit_digit ha]
  · simp [hd, isDigit_digit ha, isDigit_digit hb]
  · simp [hd, isDigit_digit ha, isDigit_digit hb, isDigit_digit hc]

/-- Read from the left, the digits give back the byte. -/
theorem decimal_value (v : Byte) : (decimal v).foldl (fun n c => 10 * n + (c.toNat - 48)) 0 = v.toNat := by
  rcases decimal_cases v with ⟨a, ha, hv, hd⟩ | ⟨a, b, -, ha, hb, hv, hd⟩ | ⟨a, b, c, -, ha, hb, hc, hv, hd⟩
  · simp [hd, hv, toNat_digit ha]
  · simp [hd, hv, toNat_digit ha, toNat_digit hb]
  · simp [hd, hv, toNat_digit ha, toNat_digit hb, toNat_digit hc]

/-- Only 0 itself is printed with a first digit 0. -/
theorem decimal_no_leading_zero {v : Byte} (h : (decimal v).head? = some '0') : decimal v = ['0'] := by
  rcases decimal_cases v with ⟨a, -, -, hd⟩ | ⟨a, b, hpos, ha, -, -, hd⟩ | ⟨a, b, c, hpos, ha, -, -, -, hd⟩ <;>
    rw [hd, List.head?_cons, Option.some.injEq] at h
  · rw [hd, h]
  · exact absurd ((digit_eq_zero_iff ha).mp h) hpos.ne'
  · exact absurd ((digit_eq_zero_iff ha).mp h) hpos.ne'

end Sys2Proof.Machine

open Sys2Proof.Machine

/-- Settles O45: one more event is one more line, and `decimal_cases` gives the digits, their value and the first of
them. -/
theorem eventsArePrintedInDecimal : Obligations.EventsArePrintedInDecimal := by
  unfold Obligations.EventsArePrintedInDecimal
  exact ⟨rfl, printed_append_singleton,
    fun v => ⟨decimal_all_isDigit v, decimal_value v, decimal_ne_nil v, decimal_no_leading_zero⟩⟩
end

section
/-! PROOFS. Reset, start, and what a session depends on: what an action does to a core that is not RUNNING, and how a
session reads its file (70_reset_and_hazards.md R123, R125, R128). -/

namespace Sys2Proof.Machine

/-! ### Reset (70_reset_and_hazards.md R123) -/

theorem State.reset_reg (i : Fin 8) : State.reset.reg i = 0#8 := by simp [State.reg, State.reset]

theorem State.reset_memAt (k : Nat) : State.reset.memAt k = 0#8 := rfl

/-! ### Actions while the core is not RUNNING -/

variable {s t : State} {h : HostAction}

/-- What an action that is taken does to a core that is not RUNNING: the step action does nothing, and memory is
written in IDLE only. -/
theorem act_next_of_not_running (hr : s.run ≠ .running) (ht : act h s = .next t) :
    (h = .reset ∧ t = State.reset) ∨ (h = .start ∧ t = s.start) ∨ (h = .step ∧ t = s) ∨
    (s.run = .idle ∧ ∃ a v, h = .write a v ∧ t = s.setMem a.toNat v) := by
  cases h with
  | reset => exact .inl ⟨rfl, (Host.Outcome.next.inj ht).symm⟩
  | start => exact .inr (.inl ⟨rfl, (Host.Outcome.next.inj ht).symm⟩)
  | step =>
    have hst : Host.Outcome.next s = .next t := (step_of_not_running s hr).symm.trans ht
    exact .inr (.inr (.inl ⟨rfl, (Host.Outcome.next.inj hst).symm⟩))
  | write a v =>
    obtain ⟨hi, -, hw⟩ := hostWrite_next s ht
    exact .inr (.inr (.inr ⟨hi, a, v, rfl, hw⟩))

/-- Only reset changes a core that is HALTED or FAULTED (10_state.md R24). -/
theorem act_next_eq_self_of_terminal (hs : s.Terminal) (hne : h ≠ .reset) (ht : act h s = .next t) : t = s := by
  have hr : s.run ≠ .running := by rcases hs with hs | hs <;> simp [hs]
  have hi : s.run ≠ .idle := by rcases hs with hs | hs <;> simp [hs]
  rcases act_next_of_not_running hr ht with ⟨hreset, -⟩ | ⟨-, hstart⟩ | ⟨-, hstep⟩ | ⟨hidle, -⟩
  · exact absurd hreset hne
  · rw [hstart, s.start_of_ne_idle hi]
  · exact hstep
  · exact absurd hidle hi

/-- An action that is taken in IDLE keeps `pc`, or is a reset. -/
theorem act_next_pc_of_idle (hi : s.run = .idle) (ht : act h s = .next t) : t = State.reset ∨ t.pc = s.pc := by
  have hr : s.run ≠ .running := by simp [hi]
  rcases act_next_of_not_running hr ht with ⟨-, hreset⟩ | ⟨-, rfl⟩ | ⟨-, rfl⟩ | ⟨-, a, v, -, rfl⟩
  · exact .inl hreset
  · exact .inr s.start_pc
  · exact .inr rfl
  · exact .inr (s.setMem_pc a.toNat v)

/-! ### What a session depends on (70_reset_and_hazards.md R128) -/

/-- Of a well-formed file's text a session sees only the image that it spells. -/
theorem session_of_image {text : List Char} {img : List Byte} (himg : parseImage text = some img) (budget : Nat)
    (s : State) : session (some text) budget s = afterLoad budget State.reset (loadImage img State.reset) := by
  rw [session_eq_afterLoad, hostLoad_image State.reset rfl himg]

end Sys2Proof.Machine

open Sys2Proof.Machine

/-- Settles O49: reset discards the state that a session began in, and the load discards all of the text but its
image. -/
theorem sessionsDoNotInfluenceEachOther : Obligations.SessionsDoNotInfluenceEachOther := by
  unfold Obligations.SessionsDoNotInfluenceEachOther
  refine ⟨fun file budget s s' => ?_, fun text text' img budget s s' himg himg' => ?_⟩
  · rw [session_eq_afterLoad s, session_eq_afterLoad s']
  · rw [session_of_image himg budget s, session_of_image himg' budget s']

/-- Settles O39: the reset state piece by piece, and `act_next_eq_self_of_terminal` for every other action. -/
theorem resetPutsEveryPieceOfState : Obligations.ResetPutsEveryPieceOfState := by
  unfold Obligations.ResetPutsEveryPieceOfState
  refine ⟨fun s => ?_, fun h s t => act_next_eq_self_of_terminal⟩
  exact ⟨State.reset, rfl, State.reset_reg, rfl, State.reset_memAt, rfl, rfl, rfl⟩

/-- Settles O40: the two cases of `start`, the reset state, and `act_next_pc_of_idle`, since the `pc` of the reset state
is 0 too. -/
theorem startActsInIdleOnly : Obligations.StartActsInIdleOnly := by
  unfold Obligations.StartActsInIdleOnly
  refine ⟨fun s hi => ?_, fun s hs => ?_, ⟨rfl, rfl⟩, fun h s t hi hpc ht => ?_⟩
  · exact congrArg Host.Outcome.next (s.start_idle hi)
  · have hne : s.run ≠ .idle := by rcases hs with hs | hs | hs <;> simp [hs]
    exact congrArg Host.Outcome.next (s.start_of_ne_idle hne)
  · rcases act_next_pc_of_idle hi ht with rfl | hkept
    · rfl
    · exact hkept.trans hpc
end

section
/-! PROOFS. The decoder against the encoder: a whole instruction is decoded from its own bytes, and what is decoded
begins with its encoding (30_encoding.md R56 to R63). -/

namespace Sys2Proof

/-- The decoder's answer is the table's entry for the first byte, with the next two bytes as latches. -/
theorem decode_cons_eq_ok_iff {op : Byte} {rest : List Byte} {i : Instr} :
    decode (op :: rest) = .ok i ↔ Machine.recognize op rest[0]? rest[1]? = .ok i := by
  cases h : lookup op rest[0]? rest[1]? <;> simp [decode, Machine.recognize, h]

/-- The bytes of a whole instruction are its opcode and its operands, which are the latches that the table is asked
with. -/
theorem decode_encode_append {i : Instr} (h : WellFormed i = true) (rest : List Byte) :
    decode (encode i ++ rest) = .ok i := by
  match i, h with
  | .ldi (some _) (some _), _ => rfl
  | .prn (some _), _ => rfl
  | .mul (some _) (some _), _ => rfl
  | .hlt, _ => rfl

/-! ### What was decoded, read back from the bytes -/

/-- The first two bytes of a list, as far as they are there, begin the list. -/
theorem toList_getElem?_append_isPrefix (l : List Byte) : l[0]?.toList ++ l[1]?.toList <+: l := by
  match l with
  | [] | [_] => exact List.prefix_rfl
  | a :: b :: l => exact List.prefix_append [a, b] l

theorem toList_getElem?_zero_isPrefix (l : List Byte) : l[0]?.toList <+: l :=
  (List.prefix_append _ _).trans (toList_getElem?_append_isPrefix l)

theorem isSome_getElem?_and_iff (l : List Byte) : (l[0]?.isSome && l[1]?.isSome) = true ↔ 3 ≤ l.length + 1 := by
  simp
  omega

theorem isSome_getElem?_zero_iff (l : List Byte) : l[0]?.isSome = true ↔ 2 ≤ l.length + 1 := by
  simp
  omega

end Sys2Proof

namespace Sys2Proof.Machine

/-- An opcode that the table has an entry for, and that entry. -/
theorem recognize_eq_ok_cases {op : Byte} {a b : Operand} {i : Instr} (h : recognize op a b = .ok i) :
    (op = opLdi ∧ i = .ldi a b) ∨ (op = opPrn ∧ i = .prn a) ∨ (op = opMul ∧ i = .mul a b) ∨
    (op = opHlt ∧ i = .hlt) := by
  rcases lookup_cases op a b with ⟨hop, hl⟩ | ⟨hop, hl⟩ | ⟨hop, hl⟩ | ⟨hop, hl⟩ | ⟨-, hl⟩
  · exact .inl ⟨hop, Except.ok.inj (h.symm.trans (recognize_of_some hl))⟩
  · exact .inr (.inl ⟨hop, Except.ok.inj (h.symm.trans (recognize_of_some hl))⟩)
  · exact .inr (.inr (.inl ⟨hop, Except.ok.inj (h.symm.trans (recognize_of_some hl))⟩))
  · exact .inr (.inr (.inr ⟨hop, Except.ok.inj (h.symm.trans (recognize_of_some hl))⟩))
  · cases h.symm.trans (recognize_of_none hl)

/-- Bytes that decode begin with the instruction's encoding, and the instruction is whole exactly when they reach its
length. -/
theorem encode_isPrefix_of_decode {bs : List Byte} {i : Instr} (h : decode bs = .ok i) :
    encode i <+: bs ∧ (WellFormed i = true ↔ i.length ≤ bs.length) := by
  match bs with
  | op :: rest =>
    have hrec : recognize op rest[0]? rest[1]? = .ok i := decode_cons_eq_ok_iff.mp h
    rcases recognize_eq_ok_cases hrec with ⟨rfl, rfl⟩ | ⟨rfl, rfl⟩ | ⟨rfl, rfl⟩ | ⟨rfl, rfl⟩
    · exact ⟨(List.prefix_cons_inj opLdi).mpr (toList_getElem?_append_isPrefix rest), isSome_getElem?_and_iff rest⟩
    · exact ⟨(List.prefix_cons_inj opPrn).mpr (toList_getElem?_zero_isPrefix rest), isSome_getElem?_zero_iff rest⟩
    · exact ⟨(List.prefix_cons_inj opMul).mpr (toList_getElem?_append_isPrefix rest), isSome_getElem?_and_iff rest⟩
    · exact ⟨(List.prefix_cons_inj opHlt).mpr List.nil_prefix, by simp [WellFormed, Instr.length]⟩

end Sys2Proof.Machine

open Sys2Proof Sys2Proof.Machine

/-- Settles O1: with its operands there, an instruction is the table's entry for the bytes of its encoding. -/
theorem encodedInstructionDecodes : Obligations.EncodedInstructionDecodes := by
  unfold Obligations.EncodedInstructionDecodes
  exact fun i rest h => decode_encode_append h rest

/-- Settles O2: by the table's entry that the decoder answered, in `encode_isPrefix_of_decode`. -/
theorem decodedInstructionIsItsBytes : Obligations.DecodedInstructionIsItsBytes := by
  unfold Obligations.DecodedInstructionIsItsBytes
  exact fun bs i => encode_isPrefix_of_decode

/-- Settles O3: each word is the encoding of a whole instruction, which `decode_encode_append` reads back. -/
theorem opcodeMapWords : Obligations.OpcodeMapWords := by
  unfold Obligations.OpcodeMapWords
  refine ⟨?_, ?_, ?_, ?_, rfl, rfl, rfl, rfl⟩
  · exact decode_encode_append (i := .ldi (some 0#8) (some 8#8)) rfl []
  · exact decode_encode_append (i := .prn (some 0#8)) rfl []
  · exact decode_encode_append (i := .mul (some 0#8) (some 1#8)) rfl []
  · exact decode_encode_append (i := .hlt) rfl []
end

section
/-! PROOFS. The bytes at `pc`: the step runs the instruction that they decode to, and depends on no byte beyond that
instruction (40_fetch_execute.md R80; 30_encoding.md R63). -/

namespace Sys2Proof.Machine

variable {s t : State} {i : Instr}

/-! ### The bytes at `pc` -/

/-- The three addresses from `pc` on, of which those past the last cell are left out. -/
theorem State.codeBytes_eq (s : State) :
    s.codeBytes = ([s.pc.toNat, s.pc.toNat + 1, s.pc.toNat + 2].filter (· < 256)).map s.memAt := rfl

theorem State.codeBytes_of_ge (h : 256 ≤ s.pc.toNat) : s.codeBytes = [] := by
  simp [s.codeBytes_eq, h, Nat.le_add_right_of_le h]

theorem State.codeBytes_of_le_253 (h : s.pc.toNat ≤ 253) :
    s.codeBytes = [s.memAt s.pc.toNat, s.memAt (s.pc.toNat + 1), s.memAt (s.pc.toNat + 2)] := by
  have h0 : s.pc.toNat < 256 := by omega
  have h1 : s.pc.toNat + 1 < 256 := by omega
  have h2 : s.pc.toNat + 2 < 256 := by omega
  simp [s.codeBytes_eq, h0, h1, h2]

/-- The latches are the two bytes after the opcode, as far as memory goes. -/
theorem State.codeBytes_of_lt (h : s.pc.toNat < 256) : ∃ rest : List Byte,
    s.codeBytes = s.memAt s.pc.toNat :: rest ∧ s.fetch = recognize (s.memAt s.pc.toNat) rest[0]? rest[1]? := by
  rw [s.fetch_of_lt h]
  by_cases h1 : s.pc.toNat + 1 < 256
  · by_cases h2 : s.pc.toNat + 2 < 256
    · exact ⟨_, State.codeBytes_of_le_253 (by omega), by rw [if_pos h1, if_pos h2]; rfl⟩
    · exact ⟨[s.memAt (s.pc.toNat + 1)], by simp [s.codeBytes_eq, h, h1, h2], by rw [if_pos h1, if_neg h2]; rfl⟩
  · have h2 : ¬ s.pc.toNat + 2 < 256 := by omega
    exact ⟨[], by simp [s.codeBytes_eq, h, h1, h2], by rw [if_neg h1, if_neg h2]; rfl⟩

/-- The decoder of the bytes at `pc` and the fetch agree on every instruction. -/
theorem State.fetch_of_decode_codeBytes (h : decode s.codeBytes = .ok i) : s.fetch = .ok i := by
  by_cases hp : s.pc.toNat < 256
  · obtain ⟨rest, hcode, hf⟩ := State.codeBytes_of_lt hp
    rw [hcode, decode_cons_eq_ok_iff] at h
    exact hf.trans h
  · rw [State.codeBytes_of_ge (Nat.le_of_not_lt hp)] at h
    cases h

/-! ### Bytes placed at `pc` -/

/-- Three bytes placed where they fit are the bytes at `pc`. -/
theorem State.codeBytes_withBytesAtPc (hm : Memory.wf s.mem = true) (hp : s.pc.toNat ≤ 253) (b₀ b₁ b₂ : Byte) :
    (s.withBytesAtPc [b₀, b₁, b₂]).codeBytes = [b₀, b₁, b₂] := by
  have hread : ∀ k, k < 3 → (s.withBytesAtPc [b₀, b₁, b₂]).memAt (s.pc.toNat + k) =
      [b₀, b₁, b₂][k]?.getD (s.memAt (s.pc.toNat + k)) := by
    intro k hk
    have hlt : s.pc.toNat + k < Config.memSize := by simp only [Config.memSize]; omega
    rw [State.memAt, State.withBytesAtPc_mem, Memory.read_place _ _ hm, if_pos hlt, if_pos (Nat.le_add_right _ _),
      Nat.add_sub_cancel_left]
    rfl
  have h₀ : (s.withBytesAtPc [b₀, b₁, b₂]).memAt s.pc.toNat = b₀ := hread 0 (by decide)
  have h₁ : (s.withBytesAtPc [b₀, b₁, b₂]).memAt (s.pc.toNat + 1) = b₁ := hread 1 (by decide)
  have h₂ : (s.withBytesAtPc [b₀, b₁, b₂]).memAt (s.pc.toNat + 2) = b₂ := hread 2 (by decide)
  rw [State.codeBytes_of_le_253 (s := s.withBytesAtPc [b₀, b₁, b₂]) hp, State.withBytesAtPc_pc, h₀, h₁, h₂]

theorem decode_of_decodeTableWord {nbits w : Nat} (h : decodeTableWord nbits w = some i) :
    decode (tableBytes nbits w) = .ok i := by
  rw [decodeTableWord] at h
  cases hd : decode (tableBytes nbits w) with
  | ok j => rw [hd] at h; exact congrArg Except.ok (Option.some.inj h)
  | error e => rw [hd] at h; cases h

/-! ### A step with another memory -/

theorem State.opFetch_congr {a : Addr} (h : a.toNat < 256 → t.memAt a.toNat = s.memAt a.toNat) :
    t.opFetch a = s.opFetch a := by
  by_cases ha : a.toNat < 256
  · rw [s.opFetch_of_lt ha, t.opFetch_of_lt ha, h ha]
  · rw [s.opFetch_of_ge (Nat.le_of_not_lt ha), t.opFetch_of_ge (Nat.le_of_not_lt ha)]

theorem length_pos_and_le_three (i : Instr) : 0 < i.length ∧ i.length ≤ 3 := by
  cases i <;> simp [Instr.length]

/-- The latch of an operand within the instruction is the same in two memories that agree on the instruction. -/
theorem State.opFetch_withMem {m : Memory} {n : Nat} (hp : s.pc.toNat < 256) (hn : n ≤ 3)
    (hm : s.pc.toNat + n < 256 → Memory.read m (s.pc.toNat + n) = s.memAt (s.pc.toNat + n)) :
    { s with mem := m }.opFetch (s.pc + BitVec.ofNat 9 n) = s.opFetch (s.pc + BitVec.ofNat 9 n) := by
  refine State.opFetch_congr ?_
  rw [Addr.toNat_add_small (by omega) hn]
  exact hm

/-- The fetch looks at no byte beyond the instruction that it answers (30_encoding.md R63). -/
theorem State.fetch_withMem {m : Memory} (hf : s.fetch = .ok i)
    (hm : ∀ k, k < i.length → s.pc.toNat + k < 256 →
      Memory.read m (s.pc.toNat + k) = s.memAt (s.pc.toNat + k)) :
    { s with mem := m }.fetch = .ok i := by
  obtain ⟨hpos, hle⟩ := length_pos_and_le_three i
  have hp : s.pc.toNat < 256 := State.pc_lt_of_fetch_ok hf
  have hop : { s with mem := m }.memRead s.pc = .ok (s.memAt s.pc.toNat) := by
    rw [State.memRead_of_lt _ hp]
    exact congrArg Except.ok (hm 0 hpos hp)
  have hlatch : ∀ n, n < i.length → { s with mem := m }.opFetch (s.pc + BitVec.ofNat 9 n) =
      s.opFetch (s.pc + BitVec.ofNat 9 n) := fun n hn =>
    State.opFetch_withMem hp (by omega) (hm n hn)
  rw [State.fetch, s.memRead_of_lt hp, ok_bind] at hf
  rw [State.fetch, hop, ok_bind]
  rcases recognize_eq_ok_cases hf with ⟨hop, rfl⟩ | ⟨hop, rfl⟩ | ⟨hop, rfl⟩ | ⟨hop, rfl⟩
  · rw [← hf, hlatch 1 (by simp [Instr.length]), hlatch 2 (by simp [Instr.length])]
  · rw [hop, recognize_of_some (lookup_prn _ _), hlatch 1 (by simp [Instr.length])]
  · rw [← hf, hlatch 1 (by simp [Instr.length]), hlatch 2 (by simp [Instr.length])]
  · rw [hop, recognize_of_some (lookup_hlt _ _)]

theorem execLdi_register (s : State) (r : Fin 8) (v : Byte) :
    execLdi (some (BitVec.ofNat 8 r.val)) (some v) s = .next ((s.setReg r v).advance 3#9) := by
  simp [execLdi]

theorem execPrn_register (s : State) (r : Fin 8) :
    execPrn (some (BitVec.ofNat 8 r.val)) s = .next ((s.emit (s.reg r)).advance 2#9) := by
  simp [execPrn]

theorem execMul_registers (s : State) (r q : Fin 8) :
    execMul (some (BitVec.ofNat 8 r.val)) (some (BitVec.ofNat 8 q.val)) s =
      .next ((s.setReg r (BitVec.ofNat 8 ((s.reg r).toNat * (s.reg q).toNat))).advance 3#9) := by
  simp [execMul]

/-- No handler looks at memory: its operands come to it as latches. -/
theorem exec_withMem (m : Memory) (h : exec i s = .next t) :
    exec i { s with mem := m } = .next { t with mem := m } := by
  cases i with
  | ldi ra imm =>
    rcases execLdi_cases s ra imm with ⟨r, v, rfl, rfl, he⟩ | ⟨rfl, he⟩ | ⟨a, rfl, rfl, he⟩ |
      ⟨a, v, rfl, rfl, ha, he⟩ <;> cases he.symm.trans h
    · exact execLdi_register _ r v
    · rfl
    · rfl
    · exact execLdi_register_out_of_range _ v ha
  | prn ra =>
    rcases execPrn_cases s ra with ⟨r, rfl, he⟩ | ⟨rfl, he⟩ | ⟨a, rfl, ha, he⟩ <;> cases he.symm.trans h
    · exact execPrn_register _ r
    · rfl
    · exact execPrn_register_out_of_range _ ha
  | mul ra rb =>
    rcases execMul_cases s ra rb with ⟨r, q, rfl, rfl, he⟩ | ⟨rfl, he⟩ | ⟨a, rfl, rfl, he⟩ |
      ⟨a, b, rfl, rfl, ha, he⟩ | ⟨a, b, rfl, rfl, ha, hb, he⟩ <;> cases he.symm.trans h
    · exact execMul_registers _ r q
    · rfl
    · rfl
    · exact execMul_first_register_out_of_range _ b ha
    · exact execMul_second_register_out_of_range _ ha hb
  | hlt =>
    cases h
    rfl

end Sys2Proof.Machine

open Sys2Proof.Machine

/-- Settles O6: the bytes at `pc` decode to the instruction that is fetched. -/
theorem stepRunsTheDecodedInstruction : Obligations.StepRunsTheDecodedInstruction := by
  unfold Obligations.StepRunsTheDecodedInstruction
  exact fun s i hr h => step_of_fetch_ok s hr (State.fetch_of_decode_codeBytes h)

/-- Settles O7: the placed bytes are the bytes at `pc`, so the step runs what they decode to. -/
theorem placedWordIsTheNextInstruction : Obligations.PlacedWordIsTheNextInstruction := by
  unfold Obligations.PlacedWordIsTheNextInstruction
  intro s nbits w i hm hp hw
  have hcode : (s.withFetchWord nbits w).codeBytes = Sys2Proof.tableBytes nbits w :=
    State.codeBytes_withBytesAtPc hm hp _ _ _
  refine step_of_fetch_ok _ rfl (State.fetch_of_decode_codeBytes ?_)
  rw [hcode, decode_of_decodeTableWord hw]

/-- Settles O5: the fetch answers the same instruction, whose handler does not look at memory; a step that leaves the
core RUNNING has completed that instruction. -/
theorem trailingBytesDoNotMatter : Obligations.TrailingBytesDoNotMatter := by
  unfold Obligations.TrailingBytesDoNotMatter
  intro s t m i hr hf ht hm
  refine ⟨?_, fun htr => ?_⟩
  · rw [step_of_fetch_ok s hr hf] at ht
    rw [step_of_fetch_ok { s with mem := m } hr (State.fetch_withMem hf hm), exec_withMem m ht]
  · obtain ⟨j, hj, hc⟩ := completed_of_step_running hr ht htr
    obtain rfl : i = j := Except.ok.inj (hf.symm.trans hj)
    exact hc.pc_toNat (State.pc_lt_of_fetch_ok hf)
end

section
/-! PROOFS. The instructions in every state: where each completes and what it leaves unchanged, where an operand is
missing, and the frame of every step (41_ldi_prn.md; 42_alu_mul.md; 43_hlt.md). -/

namespace Sys2Proof.Machine

variable (s : State)

/-! ### Where an operand is missing (40_fetch_execute.md R77, R79) -/

theorem execLdi_first_missing (imm : Operand) :
    execLdi none imm s = .next (s.raise ⟨.outOfRangeAddress, s.pc + 1#9⟩) := rfl

theorem execLdi_second_missing (a : Byte) :
    execLdi (some a) none s = .next (s.raise ⟨.outOfRangeAddress, s.pc + 2#9⟩) := rfl

theorem execPrn_missing : execPrn none s = .next (s.raise ⟨.outOfRangeAddress, s.pc + 1#9⟩) := rfl

theorem execMul_first_missing (rb : Operand) :
    execMul none rb s = .next (s.raise ⟨.outOfRangeAddress, s.pc + 1#9⟩) := rfl

theorem execMul_second_missing (a : Byte) :
    execMul (some a) none s = .next (s.raise ⟨.outOfRangeAddress, s.pc + 2#9⟩) := rfl

/-! ### The frame of a step -/

variable {s} {t : State}

/-- Only LDI and MUL write a register, one; only PRN emits, one event, a register's value; nothing writes memory
(10_state.md R19, R30; 20_memory.md R39). -/
theorem StepShape.frame (h : StepShape s t) :
    t.mem = s.mem ∧
    ((t.x = s.x ∧ t.out = s.out) ∨
     (s.memAt s.pc.toNat = opPrn ∧ t.x = s.x ∧ ∃ r, t.out = s.out ++ [s.reg r]) ∨
     ((s.memAt s.pc.toNat = opLdi ∨ s.memAt s.pc.toNat = opMul) ∧ t.out = s.out ∧
        ∃ r, ∀ j, j ≠ r → t.reg j = s.reg j)) := by
  cases h with
  | fetchPast | illegal | halt | operandA | operandB | indexA | indexB => exact ⟨rfl, .inl ⟨rfl, rfl⟩⟩
  | prn _ hop r => exact ⟨rfl, .inr (.inl ⟨hop, rfl, r, rfl⟩)⟩
  | ldi _ hop r => exact ⟨rfl, .inr (.inr ⟨.inl hop, rfl, r, fun j => s.reg_setReg_ne r j _⟩)⟩
  | mul _ hop r => exact ⟨rfl, .inr (.inr ⟨.inr hop, rfl, r, fun j => s.reg_setReg_ne r j _⟩)⟩

/-! ### A core that is not RUNNING -/

/-- No number of steps changes a core that is not RUNNING (40_fetch_execute.md R73). -/
theorem core_run_of_not_running (hr : s.run ≠ .running) : ∀ k, Sys2Proof.core.run k s = .next s
  | 0 => rfl
  | k + 1 => (core_run_succ k (step_of_not_running s hr)).trans (core_run_of_not_running hr k)

end Sys2Proof.Machine

open Sys2Proof.Machine

/-- Settles O16: outside RUNNING nothing changes, and otherwise by the shapes of a step. -/
theorem frameOfEveryStep : Obligations.FrameOfEveryStep := by
  unfold Obligations.FrameOfEveryStep
  intro s t ht
  by_cases hr : s.run = .running
  · exact (step_shape s hr ht).frame
  · rw [step_of_not_running s hr] at ht
    cases ht
    exact ⟨rfl, .inl ⟨rfl, rfl⟩⟩

/-- Settles O17: the state that `execLdi_ok` says, field by field. -/
theorem ldiCompletes : Obligations.LdiCompletes := by
  unfold Obligations.LdiCompletes
  intro s a v h
  refine ⟨_, execLdi_ok s h, ?_, fun j hj => ?_, rfl, fun hp => ?_, rfl, rfl, rfl, fun k => rfl⟩
  · rw [State.advance_reg, State.reg_setReg_self]
  · exact s.reg_setReg_ne _ j v (Fin.ne_of_val_ne hj)
  · exact Addr.toNat_add_small (p := s.pc) (n := 3) (by omega) (by omega)

/-- Settles O18: the state that `execPrn_ok` says, field by field. -/
theorem prnCompletes : Obligations.PrnCompletes := by
  unfold Obligations.PrnCompletes
  intro s a h
  refine ⟨_, execPrn_ok s h, rfl, fun j => rfl, rfl, fun hp => ?_, rfl, rfl, fun k => rfl⟩
  exact Addr.toNat_add_small (p := s.pc) (n := 2) (by omega) (by omega)

/-- Settles O19: the state that `execMul_ok` says, field by field; a byte holds the product modulo 256. -/
theorem mulCompletes : Obligations.MulCompletes := by
  unfold Obligations.MulCompletes
  intro s a b ha hb
  refine ⟨_, execMul_ok s ha hb, ?_, fun j hj => ?_, rfl, fun hp => ?_, rfl, rfl, rfl, fun k => rfl⟩
  · rw [State.advance_reg, State.reg_setReg_self]
    exact BitVec.toNat_ofNat _ 8
  · exact s.reg_setReg_ne _ j _ (Fin.ne_of_val_ne hj)
  · exact Addr.toNat_add_small (p := s.pc) (n := 3) (by omega) (by omega)

/-- Settles O20: the handler answers the halted state, field by field. -/
theorem hltCompletes : Obligations.HltCompletes := by
  unfold Obligations.HltCompletes
  intro s
  exact ⟨s.halt, execHlt_next s, s.halt_run, s.halt_pc, s.halt_fault, s.halt_out, s.halt_reg, s.halt_memAt⟩

/-- Settles O21: one lemma for each handler and operand. -/
theorem missingOperandTraps : Obligations.MissingOperandTraps := by
  unfold Obligations.MissingOperandTraps
  intro s a o
  refine ⟨?_, ?_, ?_, ?_, ?_⟩
  · exact ⟨_, execLdi_first_missing s o, faultedFrom_raise s _⟩
  · exact ⟨_, execLdi_second_missing s a, faultedFrom_raise s _⟩
  · exact ⟨_, execPrn_missing s, faultedFrom_raise s _⟩
  · exact ⟨_, execMul_first_missing s o, faultedFrom_raise s _⟩
  · exact ⟨_, execMul_second_missing s a, faultedFrom_raise s _⟩

/-- Settles O26: the step answers the halted state, which is not RUNNING. -/
theorem haltEndsTheRun : Obligations.HaltEndsTheRun := by
  unfold Obligations.HaltEndsTheRun
  intro s hr hp hop
  have hhalted : s.halt.run ≠ .running := by rw [s.halt_run]; decide
  refine ⟨s.halt, ?_, s.halt_run, s.halt_x, s.halt_pc, s.halt_fault, s.halt_mem, s.halt_out,
    core_run_of_not_running hhalted⟩
  exact (step_of_hlt hr hp hop).trans (execHlt_next s)
end

section
/-! PROOFS. The laws of MUL and ADD: the ALU's results are the product and the sum of bit vectors (42_alu_mul.md,
section 3). -/

namespace Sys2Proof.Machine

variable (a b : Byte)

theorem alu_mul_eq_mul : alu aluMul a b = some (a * b) := alu_mul a b

theorem alu_add_eq_add : alu aluAdd a b = some (a + b) := by
  rw [alu_add, BitVec.ofNat_add, BitVec.ofNat_toNat, BitVec.ofNat_toNat, BitVec.setWidth_eq, BitVec.setWidth_eq]

/-- The low byte of the 16-bit product. -/
theorem extractLsb'_mul_setWidth : (a.setWidth 16 * b.setWidth 16).extractLsb' 0 8 = a * b := by
  simp [← BitVec.setWidth_eq_extractLsb', BitVec.setWidth_mul]

/-- The low byte of the 9-bit sum. -/
theorem extractLsb'_add_setWidth : (a.setWidth 9 + b.setWidth 9).extractLsb' 0 8 = a + b := by
  simp [← BitVec.setWidth_eq_extractLsb', BitVec.setWidth_add]

end Sys2Proof.Machine

open Sys2Proof.Machine

/-- Settles O29: each is a law of the product or of the sum of bit vectors. -/
theorem arithmeticLaws : Obligations.ArithmeticLaws := by
  unfold Obligations.ArithmeticLaws
  have hmul : ∀ a b, alu 1#2 a b = some (a * b) := alu_mul_eq_mul
  have hadd : ∀ a b, alu 0#2 a b = some (a + b) := alu_add_eq_add
  intro a b c
  simp only [hmul, hadd, Option.bind_some]
  refine ⟨?_, ?_, ?_, ?_, ?_, ?_, fun h => ⟨_, rfl, ?_⟩, ?_, ?_, ?_, ?_, fun h => ⟨_, rfl, ?_⟩⟩
  · rw [BitVec.mul_comm]
  · rw [BitVec.mul_assoc]
  · rw [BitVec.mul_one]
  · rw [BitVec.mul_zero]
  · rw [BitVec.zero_mul]
  · rw [extractLsb'_mul_setWidth]
  · rw [BitVec.toNat_mul, Nat.mod_eq_of_lt h]
  · rw [BitVec.add_comm]
  · rw [BitVec.add_assoc]
  · rw [BitVec.zero_add]
  · rw [extractLsb'_add_setWidth]
  · rw [BitVec.toNat_add, Nat.mod_eq_of_lt h]
end

section
/-! PROOFS. The invariant: it holds at reset and at every launch, and every step and every host action that is taken
keeps it (10_state.md R22, R25; 60_exceptions.md R103, R107, R109). -/

namespace Sys2Proof.Machine

variable {s t : State}

/-! ### The invariant outside FAULTED and in FAULTED -/

theorem State.Inv.pc_le (h : s.Inv) : s.pc.toNat ≤ 256 := h.2.1

/-- Outside FAULTED the invariant asks for a fault record of 0. -/
theorem State.inv_iff_of_not_faulted (hr : s.run ≠ .faulted) :
    s.Inv ↔ Memory.wf s.mem = true ∧ s.pc.toNat ≤ 256 ∧ s.fault = ⟨none, 0#9, 0#9⟩ := by
  constructor
  · rintro ⟨hm, hp, hrec, -⟩
    have hc : s.fault.cause = none := hrec.cause_none hr
    obtain ⟨hpc, hv⟩ := hrec.2.1 hc
    have heta : s.fault = ⟨s.fault.cause, s.fault.pc, s.fault.value⟩ := rfl
    exact ⟨hm, hp, by rw [heta, hc, hpc, hv]⟩
  · rintro ⟨hm, hp, hf⟩
    exact ⟨hm, hp, by simp [State.RecordTogether, hf, hr], by simp [State.RecordValue, hf]⟩

/-- Raising a fault keeps the invariant if the value recorded is what the cause says. -/
theorem State.Inv.raise {e : Raised} (h : s.Inv) (hv : (s.raise e).RecordValue) : (s.raise e).Inv := by
  obtain ⟨hm, hp, -, -⟩ := h
  exact ⟨hm, hp, by simp [State.RecordTogether], hv⟩

/-! ### What the three causes record -/

theorem recordValue_raise_illegal (hp : s.pc.toNat < 256) (hop : IllegalOpcode (s.memAt s.pc.toNat)) :
    (s.raise ⟨.unrecognizedOpcode, (s.memAt s.pc.toNat).setWidth 9⟩).RecordValue := by
  refine ⟨fun _ => ⟨hp, hop, rfl⟩, ?_, ?_, ?_⟩ <;> simp

theorem recordValue_raise_address {v : Addr} (hp : 254 ≤ s.pc.toNat) (hv : v.toNat = 256) :
    (s.raise ⟨.outOfRangeAddress, v⟩).RecordValue := by
  have hv' : v = 256#9 := BitVec.eq_of_toNat_eq hv
  refine ⟨?_, fun _ => ⟨hv', hp⟩, ?_, ?_⟩ <;> simp

theorem recordValue_raise_register {b : Byte} (hb : 8 ≤ b.toNat)
    (hcode : b = s.memAt (s.pc.toNat + 1) ∨ b = s.memAt (s.pc.toNat + 2)) :
    (s.raise ⟨.outOfRangeRegister, b.setWidth 9⟩).RecordValue := by
  have hwide : 8 ≤ (b.setWidth 9).toNat := by rwa [BitVec.toNat_setWidth_of_le (by decide)]
  refine ⟨?_, ?_, fun _ => ⟨hwide, hcode.imp ?_ ?_⟩, ?_⟩
  · simp
  · simp
  · exact congrArg (BitVec.setWidth 9)
  · exact congrArg (BitVec.setWidth 9)
  · simp

/-! ### A step -/

/-- From a state outside FAULTED the invariant passes to every other one with the same memory and fault record, while
`pc` stays in bounds. -/
theorem State.Inv.of_frame (h : s.Inv) (hr : s.run ≠ .faulted) (hm : t.mem = s.mem) (hp : t.pc.toNat ≤ 256)
    (hrun : t.run ≠ .faulted) (hf : t.fault = s.fault) : t.Inv := by
  obtain ⟨hsm, -, hsf⟩ := (State.inv_iff_of_not_faulted hr).mp h
  exact (State.inv_iff_of_not_faulted hrun).mpr ⟨hm ▸ hsm, hp, hf.trans hsf⟩

/-- A step of a RUNNING core keeps the invariant: `pc` moves only past an instruction that lies in memory, and each
fault records what its cause says. -/
theorem StepShape.inv (h : s.Inv) (hr : s.run = .running) (hs : StepShape s t) : t.Inv := by
  have hne : s.run ≠ .faulted := by simp [hr]
  have hp : s.pc.toNat ≤ 256 := h.pc_le
  have hadd : ∀ n, n ≤ 3 → (s.pc + BitVec.ofNat 9 n).toNat = s.pc.toNat + n := fun n => Addr.toNat_add_small hp
  cases hs with
  | fetchPast hpc => exact h.raise (recordValue_raise_address (by omega) (by omega))
  | illegal hpc hop => exact h.raise (recordValue_raise_illegal hpc hop)
  | operandA hpc => exact h.raise (recordValue_raise_address (by omega) ((hadd 1 (by decide)).trans (by omega)))
  | operandB hpc => exact h.raise (recordValue_raise_address (by omega) ((hadd 2 (by decide)).trans (by omega)))
  | indexA _ _ ha => exact h.raise (recordValue_raise_register ha (.inl rfl))
  | indexB _ _ _ hb => exact h.raise (recordValue_raise_register hb (.inr rfl))
  | halt => exact h.of_frame hne rfl hp (by simp) rfl
  | ldi hpc | mul hpc => exact h.of_frame hne rfl ((hadd 3 (by decide)).trans_le (by omega)) hne rfl
  | prn hpc => exact h.of_frame hne rfl ((hadd 2 (by decide)).trans_le (by omega)) hne rfl

theorem step_keeps_inv (h : s.Inv) (ht : step s = .next t) : t.Inv := by
  by_cases hr : s.run = .running
  · exact (step_shape s hr ht).inv h hr
  · rw [step_of_not_running s hr] at ht
    cases ht
    exact h

/-! ### Reset, start, a host write -/

theorem inv_reset : State.reset.Inv :=
  (State.inv_iff_of_not_faulted (by decide)).mpr ⟨State.reset_mem_wf, by decide, rfl⟩

/-- The launch state's memory is an image placed in an empty one. -/
theorem inv_launch (img : List Byte) : (launch img).Inv :=
  (State.inv_iff_of_not_faulted (s := launch img) (by simp [launch])).mpr
    ⟨Memory.wf_place img 0 Memory.wf_nil, Nat.zero_le 256, rfl⟩

theorem State.Inv.start (h : s.Inv) : s.start.Inv := by
  by_cases hi : s.run = .idle
  · have hne : s.run ≠ .faulted := by simp [hi]
    exact h.of_frame hne s.start_mem (s.start_pc ▸ h.pc_le) (by simp [s.start_idle hi]) s.start_fault
  · rwa [s.start_of_ne_idle hi]

theorem hostWrite_keeps_inv {a : Addr} {v : Byte} (h : s.Inv) (ht : hostWrite a v s = .next t) : t.Inv := by
  obtain ⟨hi, ha, rfl⟩ := hostWrite_next s ht
  have hne : s.run ≠ .faulted := by simp [hi]
  obtain ⟨hm, hp, hf⟩ := (State.inv_iff_of_not_faulted hne).mp h
  exact (State.inv_iff_of_not_faulted (s := s.setMem a.toNat v) hne).mpr ⟨Memory.wf_write v ha hm, hp, hf⟩

end Sys2Proof.Machine

open Sys2Proof.Machine

/-- Settles O33: outside RUNNING nothing changes, and otherwise by the shapes of a step. -/
theorem stepKeepsTheInvariant : Obligations.StepKeepsTheInvariant := by
  unfold Obligations.StepKeepsTheInvariant
  exact fun s t => step_keeps_inv

/-- Settles O34: one lemma for each action. -/
theorem hostActionKeepsTheInvariant : Obligations.HostActionKeepsTheInvariant := by
  unfold Obligations.HostActionKeepsTheInvariant
  intro h s t hs ht
  cases h with
  | reset =>
    cases ht
    exact inv_reset
  | start =>
    cases ht
    exact hs.start
  | step => exact step_keeps_inv hs ht
  | write a v => exact hostWrite_keeps_inv hs ht

/-- Settles O35: the record is 0 and memory is empty. -/
theorem resetMeetsTheInvariant : Obligations.ResetMeetsTheInvariant := by
  unfold Obligations.ResetMeetsTheInvariant
  exact inv_reset

/-- Settles O36: placing the bytes of an image keeps the canonical form. -/
theorem launchMeetsTheInvariant : Obligations.LaunchMeetsTheInvariant := by
  unfold Obligations.LaunchMeetsTheInvariant
  exact inv_launch
end

section
/-! PROOFS. Runs: why every run ends, and the host's run under a budget (40_fetch_execute.md, section 3;
60_exceptions.md R119). -/

namespace Sys2Proof.Machine

variable {s t : State}

/-! ### What a step adds -/

/-- A step that leaves the core RUNNING moves `pc` on by at least 2 from an address that exists; every other step ends
the run without an event. -/
theorem StepShape.advances_or_ends (h : StepShape s t) :
    (s.pc.toNat < 256 ∧ s.pc.toNat + 2 ≤ t.pc.toNat ∧ t.run = s.run ∧ t.out.length ≤ s.out.length + 1) ∨
    (t.Terminal ∧ t.out = s.out) := by
  have hadd : ∀ n, s.pc.toNat < 256 → n ≤ 3 → (s.pc + BitVec.ofNat 9 n).toNat = s.pc.toNat + n :=
    fun n hp => Addr.toNat_add_small (by omega)
  cases h with
  | fetchPast | illegal | operandA | operandB | indexA | indexB => exact .inr ⟨.inr rfl, rfl⟩
  | halt => exact .inr ⟨.inl rfl, rfl⟩
  | ldi hp | mul hp =>
    have hpc := hadd 3 (by omega) (by decide)
    exact .inl ⟨by omega, by simp [hpc], rfl, by simp⟩
  | prn hp =>
    have hpc := hadd 2 (by omega) (by decide)
    exact .inl ⟨by omega, by simp [hpc], rfl, by simp⟩

theorem State.Terminal.not_running (h : s.Terminal) : s.run ≠ .running := by
  rcases h with h | h <;> simp [h]

/-- More than `k` steps end a run from whose `pc` on memory has at most `2 * k` cells: each step but the last moves `pc`
on by 2 or more, and emits at most once. -/
theorem core_run_terminal : ∀ (k n : Nat) {s : State}, s.run = .running → 256 ≤ s.pc.toNat + 2 * k → k < n →
    ∃ t, Sys2Proof.core.run n s = .next t ∧ t.Terminal ∧ t.out.length ≤ s.out.length + k
  | k, n + 1, s, hr, hk, hn => by
    obtain ⟨u, hu, hs⟩ := step_cases s hr
    rw [core_run_succ n hu]
    rcases hs.advances_or_ends with ⟨hp, hpc, hrun, hout⟩ | ⟨hterm, hout⟩
    · obtain ⟨k, rfl⟩ : ∃ j, k = j + 1 := ⟨k - 1, by omega⟩
      obtain ⟨t, ht, hterm, hlen⟩ := core_run_terminal k n (hrun.trans hr) (by omega) (by omega)
      exact ⟨t, ht, hterm, by omega⟩
    · exact ⟨u, core_run_of_not_running hterm.not_running n, hterm, by simp [hout]⟩

/-! ### The host's run -/

/-- The host's run is as many steps of the core: those that the host leaves out would change nothing. -/
theorem core_run_eq_hostRun : ∀ (k : Nat) (s : State), Sys2Proof.core.run k s = .next (hostRun k s)
  | 0, _ => rfl
  | k + 1, s => by
    by_cases hr : s.run = .running
    · obtain ⟨t, ht⟩ := step_next s
      rw [core_run_succ k ht, hostRun_succ s k hr ht, core_run_eq_hostRun k t]
    · rw [hostRun_of_not_running s hr, core_run_of_not_running hr]

/-- While a run goes on, no step of it has recorded a fault. -/
theorem hostRun_fault_of_running : ∀ (k : Nat) {s : State}, (hostRun k s).run = .running →
    (hostRun k s).fault = s.fault
  | 0, _, _ => rfl
  | k + 1, s, h => by
    by_cases hr : s.run = .running
    · obtain ⟨t, ht⟩ := step_next s
      rw [hostRun_succ s k hr ht] at h ⊢
      have htr : t.run = .running := by
        by_contra hne
        exact hne (hostRun_of_not_running t hne k ▸ h)
      obtain ⟨i, -, hc⟩ := completed_of_step_running hr ht htr
      obtain ⟨-, hfault, -⟩ := hc.frame
      rw [hostRun_fault_of_running k h, hfault]
    · rw [hostRun_of_not_running s hr]

/-- 129 steps are enough for every run, so a budget of as many never stops one. -/
theorem hostRun_not_running_of_ge {budget : Nat} (hb : 129 ≤ budget) (s : State) :
    (hostRun budget s).run ≠ .running := by
  by_cases hr : s.run = .running
  · obtain ⟨t, ht, hterm, -⟩ := core_run_terminal 128 budget hr (Nat.le_add_left _ _) hb
    obtain rfl : hostRun budget s = t := Host.Outcome.next.inj ((core_run_eq_hostRun budget s).symm.trans ht)
    exact hterm.not_running
  · rwa [hostRun_of_not_running s hr]

end Sys2Proof.Machine

open Sys2Proof.Machine

/-- Settles O37: 128 instructions of two bytes fill memory. -/
theorem runEndsWithin129Steps : Obligations.RunEndsWithin129Steps := by
  unfold Obligations.RunEndsWithin129Steps
  exact fun s hr => core_run_terminal 128 129 hr (Nat.le_add_left _ _) (by decide)

/-- Settles O47: the host's run is the core's, a run that goes on has recorded nothing, and 129 steps end it. -/
theorem hostStopChangesNothing : Obligations.HostStopChangesNothing := by
  unfold Obligations.HostStopChangesNothing
  exact fun s budget => ⟨core_run_eq_hostRun budget s,
    fun h => ⟨hostRun_fault_of_running budget h, classify_of_running _ h⟩,
    fun hb => hostRun_not_running_of_ge hb s⟩
end

section
/-! PROOFS. The host's ports: a write while IDLE, the load of an image that fits, and what the status and debug
interfaces answer (20_memory.md R41; 70_reset_and_hazards.md R126, R129; 10_state.md R35, R36). -/

namespace Sys2Proof.Machine

/-! ### The load of an image that fits -/

/-- The state after reset with an image placed in memory. -/
def resetWithImage (img : List Byte) : State := { State.reset with mem := Memory.place [] 0 img }

theorem loadImage_reset {img : List Byte} (h : img.length ≤ 256) :
    loadImage img State.reset = .loaded (resetWithImage img) :=
  (loadImage_idle State.reset img rfl).trans (if_pos h)

theorem resetWithImage_start (img : List Byte) : (resetWithImage img).start = launch img := rfl

/-- An image that fits, and 0 after it, is what memory holds (20_memory.md, section 4). -/
theorem resetWithImage_memAt {img : List Byte} (h : img.length ≤ 256) (k : Nat) :
    (resetWithImage img).memAt k = img[k]?.getD 0#8 := by
  have hread := Memory.read_place img 0 Memory.wf_nil k
  rw [if_pos (Nat.zero_le k), Nat.sub_zero] at hread
  refine hread.trans ?_
  by_cases hk : k < Config.memSize
  · rw [if_pos hk]
    rfl
  · have hlen : img.length ≤ k := h.trans (Nat.le_of_not_lt hk)
    rw [if_neg hk, List.getElem?_eq_none hlen]
    rfl

theorem launch_memAt {img : List Byte} (h : img.length ≤ 256) (k : Nat) :
    (launch img).memAt k = img[k]?.getD 0#8 := resetWithImage_memAt h k

/-! ### Status and debug reads -/

theorem faultCauseCode_of_none {s : State} (h : s.fault.cause = none) : s.faultCauseCode = 0#3 := by
  rw [State.faultCauseCode, h]

end Sys2Proof.Machine

open Sys2Proof.Machine

/-- Settles O41: the three cases of a host write; in the first the cell is read back by the laws of memory. -/
theorem hostWriteReachesOneCell : Obligations.HostWriteReachesOneCell := by
  unfold Obligations.HostWriteReachesOneCell
  refine fun s a v => ⟨fun hi ha hm => ?_, hostWrite_past s v, hostWrite_not_idle s a v⟩
  exact ⟨_, hostWrite_ok s v hi ha, State.memAt_setMem_same hm a.toNat v,
    fun k hk => State.memAt_setMem_other s v hk.symm, Memory.wf_write v ha hm, rfl, rfl, rfl, rfl, rfl⟩

/-- Settles O42: the load places the image in the reset state's memory, and start sets RUNNING alone. -/
theorem loadAndStartGiveLaunch : Obligations.LoadAndStartGiveLaunch := by
  unfold Obligations.LoadAndStartGiveLaunch
  intro img h
  refine ⟨resetWithImage img, loadImage_reset h, resetWithImage_start img, fun i hi => ?_, fun i hi => ?_,
    State.reset_reg, rfl, rfl, rfl⟩
  · rw [launch_memAt h, List.getElem?_eq_getElem hi, Option.getD_some]
  · rw [launch_memAt h, List.getElem?_eq_none hi, Option.getD_none]

/-- Settles O48: the codes as the tables give them, and each read by the field that it shows. -/
theorem statusAndDebugReads : Obligations.StatusAndDebugReads := by
  unfold Obligations.StatusAndDebugReads
  refine ⟨⟨rfl, rfl, rfl, rfl⟩, ⟨rfl, rfl, rfl, rfl⟩,
    fun s => ⟨rfl, rfl, rfl, faultCauseCode_of_none, fun f => ?_⟩, fun s => ⟨rfl,
      fun i => BitVec.toNat_setWidth_of_le (by decide), fun a => BitVec.toNat_setWidth_of_le (by decide)⟩⟩
  exact (State.faultCauseCode_eq_code_iff s f).mpr
end

section
/-! PROOFS. The program file's lines: how a text splits into lines, what a line of blanks and binary digits holds, and
the file that spells an image (30_encoding.md R71). -/

namespace Sys2Proof.Machine

/-! ### Splitting a text into lines -/

theorem splitLines_of_no_lineFeed {l : List Char} (h : '\n' ∉ l) : splitLines l = [l] := by
  induction l with
  | nil => rfl
  | cons c l ih =>
    obtain ⟨hc, hl⟩ := List.ne_and_not_mem_of_not_mem_cons h
    simp [splitLines, hc.symm, ih hl]

theorem splitLines_append_lineFeed {l : List Char} (h : '\n' ∉ l) (rest : List Char) :
    splitLines (l ++ '\n' :: rest) = l :: splitLines rest := by
  induction l with
  | nil => rfl
  | cons c l ih =>
    obtain ⟨hc, hl⟩ := List.ne_and_not_mem_of_not_mem_cons h
    simp [splitLines, hc.symm, ih hl]

/-! ### Blanks around a literal (log entry 6) -/

/-- Blanks around a text without blanks are trimmed. -/
theorem trim_blanks_append {b l b' : List Char} (hb : ∀ c ∈ b, isBlank c = true)
    (hb' : ∀ c ∈ b', isBlank c = true) (hl : ∀ c ∈ l, isBlank c = false) : trim (b ++ l ++ b') = l := by
  have hrev : ∀ c ∈ b'.reverse, isBlank c = true := fun c hc => hb' c (List.mem_reverse.mp hc)
  have hlrev : ∀ c ∈ l.reverse, isBlank c = false := fun c hc => hl c (List.mem_reverse.mp hc)
  rw [trim, List.append_assoc, List.dropWhile_append_of_pos hb]
  cases l with
  | nil => rw [List.nil_append, List.dropWhile_eq_nil_iff.mpr hb']; rfl
  | cons c l =>
    have hc : ¬ isBlank c = true := by simp [hl c List.mem_cons_self]
    rw [List.cons_append, List.dropWhile_cons_of_neg hc, ← List.cons_append, List.reverse_append,
      List.dropWhile_append_of_pos hrev, dropWhile_isBlank_of_no_blank hlrev, List.reverse_reverse]

/-- What a line holds depends only on its trimmed text before a comment. -/
theorem parseLine_congr {l l' : List Char}
    (h : trim (l.takeWhile (fun c => c != '#')) = trim (l'.takeWhile (fun c => c != '#'))) :
    parseLine l = parseLine l' := by
  simp only [parseLine, h]

theorem takeWhile_of_no_comment {l : List Char} (h : ∀ c ∈ l, c ≠ '#') : l.takeWhile (fun c => c != '#') = l :=
  List.takeWhile_eq_self_iff.mpr fun c hc => bne_iff_ne.mpr (h c hc)

theorem ne_comment_of_blank {c : Char} (h : isBlank c = true) : c ≠ '#' := by
  rintro rfl
  cases h

theorem parseLine_blanks_append {b ds b' : List Char} (hb : ∀ c ∈ b, isBlank c = true)
    (hb' : ∀ c ∈ b', isBlank c = true) (hds : ∀ c ∈ ds, c = '0' ∨ c = '1') :
    parseLine (b ++ ds ++ b') = parseLine ds := by
  have hplain : ∀ c ∈ ds, isBlank c = false ∧ c ≠ '#' := fun c hc => plain_of_binary (hds c hc)
  have hcomment : ∀ c ∈ b ++ ds ++ b', c ≠ '#' := by
    intro c hc
    rcases List.mem_append.mp hc with hc | hc
    · rcases List.mem_append.mp hc with hc | hc
      · exact ne_comment_of_blank (hb c hc)
      · exact (hplain c hc).2
    · exact ne_comment_of_blank (hb' c hc)
  refine parseLine_congr ?_
  rw [takeWhile_of_no_comment hcomment, takeWhile_of_no_comment fun c hc => (hplain c hc).2,
    trim_blanks_append hb hb' fun c hc => (hplain c hc).1, trim_of_no_blank fun c hc => (hplain c hc).1]

/-! ### Literals -/

/-- One to eight binary digits are the byte of their value. -/
theorem parseLine_of_literal {ds : List Char} (hne : ds ≠ []) (hlen : ds.length ≤ 8)
    (hds : ∀ c ∈ ds, c = '0' ∨ c = '1') : parseLine ds = .byte (BitVec.ofNat 8 (binaryValue ds)) := by
  have hplain : ∀ c ∈ ds, isBlank c = false ∧ c ≠ '#' := fun c hc => plain_of_binary (hds c hc)
  have htake : ds.takeWhile (fun c => c != '#') = ds := takeWhile_of_no_comment fun c hc => (hplain c hc).2
  have htrim : trim ds = ds := trim_of_no_blank fun c hc => (hplain c hc).1
  have hall : ds.all (fun c => c == '0' || c == '1') = true := by simpa using hds
  simp [parseLine, htake, htrim, hall, hlen, hne]

theorem binaryValue_zero_cons (ds : List Char) : binaryValue ('0' :: ds) = binaryValue ds := rfl

/-- A digit that is missing on the left is 0 (30_encoding.md R71). -/
theorem parseLine_zero_cons {ds : List Char} (hne : ds ≠ []) (hlen : ds.length < 8)
    (hds : ∀ c ∈ ds, c = '0' ∨ c = '1') : parseLine ('0' :: ds) = parseLine ds := by
  have hds' : ∀ c ∈ '0' :: ds, c = '0' ∨ c = '1' := List.forall_mem_cons.mpr ⟨.inl rfl, hds⟩
  rw [parseLine_of_literal (List.cons_ne_nil _ _) hlen hds', parseLine_of_literal hne hlen.le hds,
    binaryValue_zero_cons]

/-! ### The file that spells an image -/

/-- A bit as a binary digit. -/
def bitChar (b : Bool) : Char := if b then '1' else '0'

theorem bitChar_binary (b : Bool) : bitChar b = '0' ∨ bitChar b = '1' := by
  cases b
  · exact .inl rfl
  · exact .inr rfl

/-- The first `n` of the eight binary digits of a byte. -/
def leadingBits (v : Byte) (n : Nat) : List Char := (List.range n).map (fun k => bitChar (v.getLsbD (7 - k)))

theorem leadingBits_binary (v : Byte) (n : Nat) : ∀ c ∈ leadingBits v n, c = '0' ∨ c = '1' := by
  intro c hc
  obtain ⟨k, -, rfl⟩ := List.mem_map.mp hc
  exact bitChar_binary _

theorem spellByte_eq (v : Byte) : spellByte v = leadingBits v 8 ++ ['\n'] := rfl

theorem binaryValue_append_bitChar (ds : List Char) (b : Bool) :
    binaryValue (ds ++ [bitChar b]) = 2 * binaryValue ds + b.toNat := by
  cases b <;> simp [binaryValue, bitChar]

/-- The bits of a number from position `k` on are those from `k + 1` on and the bit at `k`. -/
theorem div_two_pow_eq (x k : Nat) : x / 2 ^ k = 2 * (x / 2 ^ (k + 1)) + (x.testBit k).toNat := by
  rw [Nat.toNat_testBit, Nat.pow_succ, ← Nat.div_div_eq_div_mul]
  omega

/-- Read from the left, the digits of a byte are its value without the bits that have not been read yet. -/
theorem binaryValue_leadingBits (v : Byte) : ∀ n ≤ 8, binaryValue (leadingBits v n) = v.toNat / 2 ^ (8 - n) := by
  intro n
  induction n with
  | zero =>
    intro _
    exact (Nat.div_eq_of_lt v.isLt).symm
  | succ n ih =>
    intro hn
    have hsplit : leadingBits v (n + 1) = leadingBits v n ++ [bitChar (v.getLsbD (7 - n))] := by
      simp [leadingBits, List.range_succ]
    have h8 : 8 - n = 7 - n + 1 := by omega
    have h7 : 8 - (n + 1) = 7 - n := by omega
    rw [hsplit, binaryValue_append_bitChar, ih (by omega), h8, h7, div_two_pow_eq v.toNat (7 - n)]
    rfl

theorem parseLine_leadingBits (v : Byte) : parseLine (leadingBits v 8) = .byte v := by
  have hlen : (leadingBits v 8).length = 8 := by simp [leadingBits]
  have hne : leadingBits v 8 ≠ [] := by simp [leadingBits]
  rw [parseLine_of_literal hne hlen.le (leadingBits_binary v 8), binaryValue_leadingBits v 8 le_rfl, Nat.sub_self,
    Nat.pow_zero, Nat.div_one, BitVec.ofNat_toNat, BitVec.setWidth_eq]

/-- One byte a line, and an empty line at the end. -/
theorem parseImage_spellImage : ∀ img : List Byte, parseImage (spellImage img) = some img
  | [] => rfl
  | v :: img => by
    have hfeed : '\n' ∉ leadingBits v 8 := fun h => by
      rcases leadingBits_binary v 8 _ h with h | h <;> cases h
    have htext : spellImage (v :: img) = leadingBits v 8 ++ '\n' :: spellImage img := by
      simp [spellImage, spellByte_eq]
    have ih : parseLines (splitLines (spellImage img)) = some img := parseImage_spellImage img
    rw [parseImage, htext, splitLines_append_lineFeed hfeed, parseLines_byte _ (parseLine_leadingBits v), ih,
      Option.map_some]

/-! ### The bytes in memory -/

/-- The n-th byte of a file's image is cell n after its load (20_memory.md, section 4). -/
theorem hostLoad_reset_memAt {text : List Char} {img : List Byte} (himg : parseImage text = some img)
    (hlen : img.length ≤ 256) : ∃ t, hostLoad (some text) State.reset = .loaded t ∧
      ∀ (n : Nat) (h : n < img.length), t.memAt n = img[n] := by
  refine ⟨resetWithImage img, ?_, fun n hn => ?_⟩
  · rw [hostLoad_image State.reset rfl himg, loadImage_reset hlen]
  · rw [resetWithImage_memAt hlen, List.getElem?_eq_getElem hn, Option.getD_some]

end Sys2Proof.Machine

open Sys2Proof.Machine

/-- Settles O44: one lemma for each kind of line, for splitting and for the load; a comment is dropped by
`parseLine_append_comment`. -/
theorem programFileLines : Obligations.ProgramFileLines := by
  unfold Obligations.ProgramFileLines
  refine ⟨parseImage_spellImage, fun ds comment hpos hlen hds => ?_,
    fun l comment h => parseLine_append_comment h comment, fun b ds b' => parseLine_blanks_append, rfl,
    fun comment => ?_, fun text => rfl,
    fun l rest h => ⟨splitLines_of_no_lineFeed h, splitLines_append_lineFeed h rest⟩, rfl,
    fun l ls => parseLines_skip ls, fun l v ls => parseLines_byte ls, fun text img => hostLoad_reset_memAt⟩
  · have hne : ds ≠ [] := List.ne_nil_of_length_pos hpos
    have hcomment : '#' ∉ ds := fun h => (plain_of_binary (hds _ h)).2 rfl
    exact ⟨parseLine_of_literal hne hlen hds, parseLine_append_comment hcomment comment,
      fun hlt => parseLine_zero_cons hne hlt hds⟩
  · exact parseLine_append_comment (l := []) List.not_mem_nil comment
end
